-- ==== Sys2Proof/Word.lean ====
section
/-! DEFINITION. The words of the CORE block: 8-bit bytes, the 9-bit program counter, register indices
(spec 00_scope.md R10-R12). -/

namespace Sys2Proof

/-- A register or memory value, an opcode or an operand: an unsigned 8-bit value (R12, R20, R33, R55). -/
abbrev Byte := BitVec 8

/-- The program counter's word: 9 bits, reachable values 0..256 (R10 PC_WIDTH, R24). -/
abbrev PcWord := BitVec 9

/-- The index of a general register, 0..7 (R10 NUM_REGS, R20). -/
abbrev RegIdx := Fin 8

/-- `zext_9(v)`: an 8-bit value widened to the 9-bit pc width unchanged (R12). -/
abbrev zext9 (v : Byte) : PcWord := v.setWidth 9

end Sys2Proof
end

