-- ==== Sys2Proof/Config.lean ====
section
/-! DEFINITION. The implementation parameters of spec 00_scope.md R10: those this hardware fixes, and the two it
leaves open (OPCODE_MAP and ENABLE_ADD), which are fixed for the life of a core (30_encoding.md R63, R78). -/

namespace Sys2Proof

/-- `OPCODE_MAP`: the byte of each mnemonic (30_encoding.md R56). Plain data, one field a mnemonic. -/
structure OpcodeMap where
  hlt  : Byte
  ldi  : Byte
  prn  : Byte
  mul  : Byte
  cmp  : Byte
  push : Byte
  pop  : Byte
  jmp  : Byte
  jeq  : Byte
  jne  : Byte
  add  : Byte
deriving DecidableEq, Repr

/-- The open parameters of R10. -/
structure Config where
  opcodeMap : OpcodeMap
  enableAdd : Bool
deriving DecidableEq, Repr

/-- `MEM_SIZE` (R10): the number of memory cells. -/
abbrev memSize : Nat := 256

/-- `SP_REG` (R10, R22): the general register that is the stack pointer. -/
abbrev spReg : RegIdx := 7

/-- `SP_INIT` (R10, R23): the stack pointer at reset. -/
abbrev spInit : Byte := 255

/-- `IMAGE_MAX` (R10): the longest program image, in bytes. -/
abbrev imageMax : Nat := 256

end Sys2Proof
end

