-- ==== Sys2Proof/Syntax.lean ====
section
/-! DEFINITION. The instructions (30_encoding.md R56-R58): one constructor per row of the opcode table, and the
handlers of the dispatcher's branch table. -/

namespace Sys2Proof

/-- The routine the branch table selects for an opcode (00_scope.md, glossary "Handler"): one per mnemonic. -/
inductive Handler where
  | hlt | ldi | prn | mul | cmp | push | pop | jmp | jeq | jne | add
deriving DecidableEq, Repr

/-- An instruction with its operand bytes as they stand in memory. A register operand is the WHOLE byte (R59): a
value 8..255 is a form the hardware fetches and then raises on, so it is syntax too (`Instr.WellFormed` refuses it).
`mul` and `cmp` carry their two ignored bytes (R60), so that no bit of an encoding is dropped. -/
inductive Instr where
  | hlt
  | ldi  (r imm : Byte)
  | prn  (r : Byte)
  | mul  (x1 x2 : Byte)
  | cmp  (x1 x2 : Byte)
  | push (r : Byte)
  | pop  (r : Byte)
  | jmp  (r : Byte)
  | jeq  (r : Byte)
  | jne  (r : Byte)
  | add  (ra rb : Byte)
deriving DecidableEq, Repr

/-- The handler an instruction belongs to. -/
def Instr.handler : Instr → Handler
  | .hlt => .hlt
  | .ldi _ _ => .ldi
  | .prn _ => .prn
  | .mul _ _ => .mul
  | .cmp _ _ => .cmp
  | .push _ => .push
  | .pop _ => .pop
  | .jmp _ => .jmp
  | .jeq _ => .jeq
  | .jne _ => .jne
  | .add _ _ => .add

/-- The operand bytes in address order, byte 1 then byte 2 (R58). -/
def Instr.operands : Instr → List Byte
  | .hlt => []
  | .ldi r imm => [r, imm]
  | .prn r => [r]
  | .mul x1 x2 => [x1, x2]
  | .cmp x1 x2 => [x1, x2]
  | .push r => [r]
  | .pop r => [r]
  | .jmp r => [r]
  | .jeq r => [r]
  | .jne r => [r]
  | .add ra rb => [ra, rb]

/-- The register-index fields in field order (R58, R74): LDI's immediate and the bytes of MUL and CMP are none. -/
def Instr.registerFields : Instr → List Byte
  | .hlt => []
  | .ldi r _ => [r]
  | .prn r => [r]
  | .mul _ _ => []
  | .cmp _ _ => []
  | .push r => [r]
  | .pop r => [r]
  | .jmp r => [r]
  | .jeq r => [r]
  | .jne r => [r]
  | .add ra rb => [ra, rb]

end Sys2Proof
end

