-- ==== Sys2Proof/WellFormed.lean ====
section
/-! DEFINITION. Which instructions are well formed: every register-index field names one of the 8 registers
(30_encoding.md R59, R74). -/

namespace Sys2Proof

/-- A register-index operand names a register only in 0..7; it is never reduced modulo 8 (R59). -/
abbrev namesRegister (f : Byte) : Prop := f.toNat < 8

/-- Every register-index field of the instruction names a register (R74). -/
abbrev Instr.WellFormed (i : Instr) : Prop := ∀ f ∈ i.registerFields, namesRegister f

end Sys2Proof
end

