-- ==== Sys2Proof/Decode.lean ====
section
/-! DEFINITION. Encodings (30_encoding.md R55-R64): formats, lengths, the default opcode map, the branch table, the
decoder, total on any bytes and rejecting by name, and the encoder. -/

namespace Sys2Proof

/-- The instruction formats of R58. -/
inductive Format where
  | f0 | fr | fri | fxx | frr
deriving DecidableEq, Repr

/-- The format of each opcode (R57). -/
def Handler.format : Handler → Format
  | .hlt => .f0
  | .ldi => .fri
  | .prn => .fr
  | .mul => .fxx
  | .cmp => .fxx
  | .push => .fr
  | .pop => .fr
  | .jmp => .fr
  | .jeq => .fr
  | .jne => .fr
  | .add => .frr

/-- The length in bytes of an instruction of each format (R57, R58). -/
def Format.length : Format → Nat
  | .f0 => 1
  | .fr => 2
  | .fri => 3
  | .fxx => 3
  | .frr => 3

/-- The length of an instruction is a function of its opcode alone (R57, R64). -/
def Handler.length (h : Handler) : Nat := h.format.length

/-- The length of an instruction in bytes (R57). -/
def Instr.length (i : Instr) : Nat := i.handler.length

/-- The byte a map gives a handler's mnemonic (R56). -/
def OpcodeMap.byte (m : OpcodeMap) : Handler → Byte
  | .hlt => m.hlt
  | .ldi => m.ldi
  | .prn => m.prn
  | .mul => m.mul
  | .cmp => m.cmp
  | .push => m.push
  | .pop => m.pop
  | .jmp => m.jmp
  | .jeq => m.jeq
  | .jne => m.jne
  | .add => m.add

/-- The default `OPCODE_MAP` of R56. PRESUMED by the spec itself: "from general knowledge, not in source" (log 2). -/
def defaultOpcodeMap : OpcodeMap :=
  { hlt := 0x01, ldi := 0x82, prn := 0x47, mul := 0xA2, cmp := 0xA7, push := 0x45, pop := 0x46
    jmp := 0x54, jeq := 0x55, jne := 0x56, add := 0xA0 }

/-- The parameters' default values: the default map, and ENABLE_ADD false (R10). -/
def defaultConfig : Config := { opcodeMap := defaultOpcodeMap, enableAdd := false }

/-- The parameters of the WHOLE opcode table, whose ADD row is decodable only when ENABLE_ADD is true (R56; log 3). -/
def tableConfig : Config := { defaultConfig with enableAdd := true }

/-- The handlers of the branch table: the 10 of R56, plus ADD when ENABLE_ADD is true (R61). -/
def Config.handlers (c : Config) : List Handler :=
  [.hlt, .ldi, .prn, .mul, .cmp, .push, .pop, .jmp, .jeq, .jne] ++ (if c.enableAdd then [.add] else [])

/-- The opcode bytes of the branch table. -/
def Config.opcodes (c : Config) : List Byte := c.handlers.map c.opcodeMap.byte

/-- The maps R56 admits: injective on the mnemonics of the branch table, and avoiding 0x00. -/
abbrev Config.Admissible (c : Config) : Prop := c.opcodes.Nodup ∧ (0 : Byte) ∉ c.opcodes

/-- Whether the branch table holds the instruction's handler: always, but for ADD (R56). -/
abbrev Config.Decodes (c : Config) (i : Instr) : Prop := i.handler ∈ c.handlers

/-- The dispatcher's branch table: an opcode byte selects a handler only if it equals a table entry on all 8 bits
(R61). (A map that R56 does not admit may name one byte twice; the first entry is then taken, log 23.) -/
def Config.branchTable (c : Config) (op : Byte) : Option Handler :=
  c.handlers.find? (fun h => c.opcodeMap.byte h == op)

/-- Why bytes are no instruction. -/
inductive DecodeError where
  /-- There is no opcode byte. -/
  | noOpcodeByte
  /-- The opcode byte has no handler (R62, R72). -/
  | unknownOpcode (op : Byte)
  /-- The opcode has a handler, and the bytes end before the instruction does (R73). -/
  | truncated
deriving DecidableEq, Repr

/-- Read the operand of a format with one operand byte. -/
def takeOne (mk : Byte → Instr) : List Byte → Except DecodeError (Instr × List Byte)
  | b1 :: rest => .ok (mk b1, rest)
  | [] => .error .truncated

/-- Read the operands of a format with two operand bytes, byte 1 before byte 2. -/
def takeTwo (mk : Byte → Byte → Instr) : List Byte → Except DecodeError (Instr × List Byte)
  | b1 :: b2 :: rest => .ok (mk b1 b2, rest)
  | [_] => .error .truncated
  | [] => .error .truncated

/-- Read a handler's operand bytes (R58). -/
def decodeOperands (h : Handler) (bytes : List Byte) : Except DecodeError (Instr × List Byte) :=
  match h with
  | .hlt => .ok (.hlt, bytes)
  | .ldi => takeTwo .ldi bytes
  | .prn => takeOne .prn bytes
  | .mul => takeTwo .mul bytes
  | .cmp => takeTwo .cmp bytes
  | .push => takeOne .push bytes
  | .pop => takeOne .pop bytes
  | .jmp => takeOne .jmp bytes
  | .jeq => takeOne .jeq bytes
  | .jne => takeOne .jne bytes
  | .add => takeTwo .add bytes

/-- The decoder, total on any bytes: the instruction they begin with and the bytes after it, or the name of what is
wrong. An opcode without a handler is rejected before any operand byte is looked at (R64, R72). -/
def decode (c : Config) : List Byte → Except DecodeError (Instr × List Byte)
  | [] => .error .noOpcodeByte
  | op :: rest =>
    match c.branchTable op with
    | none => .error (.unknownOpcode op)
    | some h => decodeOperands h rest

/-- The encoder: the opcode byte, then the operand bytes at increasing addresses (R55, R58). -/
def encode (c : Config) (i : Instr) : List Byte := c.opcodeMap.byte i.handler :: i.operands

/-- The longest instruction, in bytes (R55). -/
def maxInstrBytes : Nat := 3

/-- The bytes of a table word in address order: bits 7..0 are the opcode byte at pc, bits 15..8 byte 1, bits 23..16
byte 2; the bits from `nbits` up are zero. -/
def tableBytes (nbits w : Nat) : List Byte :=
  (List.range maxInstrBytes).map (fun k => BitVec.ofNat 8 ((w % 2 ^ nbits) >>> (8 * k)))

/-- The instruction the decoder reads from a word of the opcode table (default map, every row decodable: log 3). -/
def decodeTableWord (nbits w : Nat) : Option Instr :=
  match decode tableConfig (tableBytes nbits w) with
  | .ok (i, _) => some i
  | .error _ => none

end Sys2Proof
end

