-- ==== Sys2Proof/Machine/State.lean ====
section
/-! DEFINITION. The state of the CORE block (10_state.md R20-R35), why it stops, and reset. -/

namespace Sys2Proof.Machine

open Sys2Proof

/-- The memory as plain data: the cells whose byte is not the reset byte, at strictly rising addresses. -/
abbrev Memory := List Host.Cell

/-- What an address that no cell lists reads as: memory is "zero-initialized at startup" (R33, R35; log 33). -/
abbrev unlistedByte : Byte := 0

/-- The canonical form of a memory: addresses strictly rise, lie in 0..255, and no cell holds the unlisted byte. -/
abbrev Memory.wf (m : Memory) : Prop :=
  m.Pairwise (fun c d => c.1 < d.1) ∧ ∀ c ∈ m, c.1 < memSize ∧ c.2 ≠ unlistedByte

/-- The three condition flags, a typed field of their own (R25, R26). -/
structure Flags where
  /-- E, Equal. -/
  e : Bool
  /-- L, Less-than. -/
  l : Bool
  /-- G, Greater-than. -/
  g : Bool
deriving DecidableEq, Repr

/-- The dispatcher's two states (R27). -/
inductive Status where
  | running
  | halted
deriving DecidableEq, Repr

/-- Why the core is halted (R28). -/
inductive HaltReason where
  | none
  | hlt
  | unknownInstruction
  | boundsError
  | unsupportedAluOperation
deriving DecidableEq, Repr

/-- The `kind` of an error record (R29). -/
inductive ErrorKind where
  | opcode
  | fetch
  | register
  | stack
  | aluOp
deriving DecidableEq, Repr

/-- The `value` of an error record: a number, or for `ALU_OP` the operation's name (R29). -/
inductive ErrorValue where
  | num (v : Int)
  | opName (n : String)
deriving DecidableEq, Repr

/-- The record of a fatal error (R29). -/
structure ErrorInfo where
  /-- The address of the faulting instruction's opcode byte. -/
  pc : PcWord
  kind : ErrorKind
  value : ErrorValue
deriving DecidableEq, Repr

/-- A fatal error as it is raised (60_exceptions.md R121), before it is recorded. -/
inductive CoreError where
  /-- The opcode byte has no handler (R72, R122). -/
  | unknownInstruction (op : Byte)
  /-- BoundsError(FETCH): the first address out of range (R71, R73). -/
  | fetch (addr : Nat)
  /-- BoundsError(REGISTER): the register-index field (R74). -/
  | register (f : Byte)
  /-- BoundsError(STACK): the stack pointer out of range, -1 or 256 (R106). -/
  | stack (sp : Int)
  /-- UnsupportedALUOperation: the operation's name (R84, R124). -/
  | unsupportedAluOperation (name : String)
deriving DecidableEq, Repr

/-- The machine's state. The spec's state is every field but `cfg`, which holds the parameters the core was built
with, fixed for its life (R10, R63, R78; log 1). -/
@[ext]
structure State where
  /-- OPCODE_MAP and ENABLE_ADD (R10): configuration, changed by nothing. -/
  cfg : Config
  /-- `mem` (R33). -/
  mem : Memory
  /-- `x[0]` .. `x[7]` (R20); `x[7]` is the stack pointer (R22). -/
  x : Vector Byte 8
  /-- `pc` (R24). -/
  pc : PcWord
  /-- `E`, `L`, `G` (R25). -/
  flags : Flags
  /-- `status` (R27). -/
  status : Status
  /-- `halt_reason` (R28). -/
  haltReason : HaltReason
  /-- `error_info` (R29). -/
  errorInfo : Option ErrorInfo
  /-- `out`, oldest value first (R30). -/
  out : List Byte
deriving DecidableEq, Repr

/-- Reset: the construction of the engine puts every piece of state at its value of R35 (R140). -/
def State.reset : State :=
  { cfg := defaultConfig
    mem := []
    x := #v[0, 0, 0, 0, 0, 0, 0, spInit]
    pc := 0
    flags := { e := false, l := false, g := false }
    status := .halted
    haltReason := .none
    errorInfo := none
    out := [] }

/-- Why a step answers no next state. -/
inductive Fault where
  /-- Raised by `step` alone, in a state whose `status` is Halted: "When `status = Halted` the dispatcher has no step"
  (R70). Safe: the hardware does nothing there either. A fatal ERROR is not this: it is a next state (R125, log 4). -/
  | noStepWhileHalted
deriving DecidableEq, Repr

/-- Why the model gives no meaning. -/
inductive Refusal where
  /-- Raised by an arm of `exec` for an instruction that has no meaning yet; no arm does. Safe. -/
  | notModelled (mnemonic : String)
deriving DecidableEq, Repr

end Sys2Proof.Machine
end

