-- ==== Sys2Proof/Machine/Flags.lean ====
section
/-! DEFINITION. The ALU (40_alu.md R80-R85): pure functions of an operation name and two 8-bit values. -/

namespace Sys2Proof.Machine

open Sys2Proof

/-- `aluAdd(a, b) = (a + b) mod 256` (R81). -/
def aluAdd (a b : Byte) : Byte := BitVec.ofNat 8 ((a.toNat + b.toNat) % 256)

/-- `aluMul(a, b) = (a * b) mod 256` (R82). -/
def aluMul (a b : Byte) : Byte := BitVec.ofNat 8 ((a.toNat * b.toNat) % 256)

/-- `aluCmp(a, b)`: the three flags of an unsigned comparison (R83). -/
def aluCmp (a b : Byte) : Flags :=
  { e := decide (a.toNat = b.toNat), l := decide (a.toNat < b.toNat), g := decide (a.toNat > b.toNat) }

/-- An ALU operation name: one of the operation set {ADD, MUL, CMP} (R80), or any other name (R84). -/
inductive AluOp where
  | add
  | mul
  | cmp
  | other (name : String)
deriving DecidableEq, Repr

/-- What the ALU returns: a value, or flags (R80). -/
inductive AluResult where
  | value (v : Byte)
  | flags (f : Flags)
deriving DecidableEq, Repr

/-- The ALU. A name outside its operation set raises UnsupportedALUOperation (R84). -/
def alu (op : AluOp) (a b : Byte) : Except CoreError AluResult :=
  match op with
  | .add => .ok (.value (aluAdd a b))
  | .mul => .ok (.value (aluMul a b))
  | .cmp => .ok (.flags (aluCmp a b))
  | .other name => .error (.unsupportedAluOperation name)

end Sys2Proof.Machine
end

