-- ==== Sys2Proof/Machine/Ops.lean ====
section
/-! DEFINITION. The named operations over memory, registers and the pc, and raising a fatal error, the one thing this
core has for an exception (20_memory.md R41; 00_scope.md R13, R14; 60_exceptions.md R125). -/

namespace Sys2Proof.Machine

open Sys2Proof

/-! ### Memory -/

/-- The byte at an address: `mem[addr]` (R41). -/
def Memory.read : Memory → Nat → Byte
  | [], _ => unlistedByte
  | (b, w) :: rest, a => if a = b then w else Memory.read rest a

/-- Put a cell in front of a memory, unless it holds the unlisted byte. -/
def Memory.cell (a : Nat) (v : Byte) (rest : Memory) : Memory :=
  if v = unlistedByte then rest else (a, v) :: rest

/-- `mem[addr] <- v` (R41), keeping the canonical form. -/
def Memory.write : Memory → Nat → Byte → Memory
  | [], a, v => Memory.cell a v []
  | (b, w) :: rest, a, v =>
    if a < b then Memory.cell a v ((b, w) :: rest)
    else if a = b then Memory.cell a v rest
    else (b, w) :: Memory.write rest a v

/-- Store bytes at increasing addresses from `a` on, those inside the address space. -/
def Memory.writeList (m : Memory) (a : Nat) : List Byte → Memory
  | [] => m
  | v :: vs => Memory.writeList (if a < memSize then m.write a v else m) (a + 1) vs

/-- `MemRead(addr, 1)` at an 8-bit address, which is always in 0..255 (R41, R42). -/
def State.memRead (s : State) (a : Byte) : Byte := s.mem.read a.toNat

/-- `MemWrite(addr, 1, v)` at an 8-bit address (R41, R42): no side effect beyond the stored byte. -/
def State.memWrite (s : State) (a v : Byte) : State := { s with mem := s.mem.write a.toNat v }

/-! ### Registers, flags, pc, output -/

/-- Read `x[i]` (R13). -/
def State.reg (s : State) (i : RegIdx) : Byte := s.x[i]

/-- `x[i] <- v` (R13). No register is hardwired (R20). -/
def State.setReg (s : State) (i : RegIdx) (v : Byte) : State := { s with x := s.x.set i v }

/-- `SP` is another name for `x[7]`, not separate storage (R13, R22). -/
def State.sp (s : State) : Byte := s.reg spReg

/-- `(E, L, G) <- f` (R87). -/
def State.setFlags (s : State) (f : Flags) : State := { s with flags := f }

/-- `pc <- target` (R13). -/
def State.setPc (s : State) (target : PcWord) : State := { s with pc := target }

/-- `pc <- pc + len` (R76). By the extent check (R73) the sum is at most 256, so the 9-bit sum never wraps in a step;
only `exec` run alone, at a pc no step reaches, could (log 12). -/
def State.advance (s : State) (len : Nat) : State := s.setPc (s.pc + BitVec.ofNat 9 len)

/-- `Emit(v)`: append a value to the output history (R13, R30). -/
def State.emit (s : State) (v : Byte) : State := { s with out := s.out ++ [v] }

/-- Normal termination: `status <- Halted`, `halt_reason <- HLT` (R113). -/
def State.halt (s : State) : State := { s with status := .halted, haltReason := .hlt }

/-! ### Raising a fatal error -/

/-- The `halt_reason` of an error (R121). -/
def CoreError.reason : CoreError → HaltReason
  | .unknownInstruction _ => .unknownInstruction
  | .fetch _ => .boundsError
  | .register _ => .boundsError
  | .stack _ => .boundsError
  | .unsupportedAluOperation _ => .unsupportedAluOperation

/-- The `kind` of an error's record (R29, R121). -/
def CoreError.kind : CoreError → ErrorKind
  | .unknownInstruction _ => .opcode
  | .fetch _ => .fetch
  | .register _ => .register
  | .stack _ => .stack
  | .unsupportedAluOperation _ => .aluOp

/-- The `value` of an error's record (R29, R121). -/
def CoreError.value : CoreError → ErrorValue
  | .unknownInstruction op => .num op.toNat
  | .fetch addr => .num addr
  | .register f => .num f.toNat
  | .stack sp => .num sp
  | .unsupportedAluOperation name => .opName name

/-- What a fatal error does (R125): the core halts, records why, and keeps every other piece of state, the pc
included, as it was before the faulting instruction. There is no return from it (R129). -/
def State.raise (s : State) (e : CoreError) : State :=
  { s with
    status := .halted
    haltReason := e.reason
    errorInfo := some { pc := s.pc, kind := e.kind, value := e.value } }

/-- Commit an instruction's scratch copy, or raise and commit none of its writes (R14). -/
def commit (s : State) (r : Except CoreError State) : Host.Outcome State Fault Refusal :=
  match r with
  | .ok t => .next t
  | .error e => .next (s.raise e)

end Sys2Proof.Machine
end

