-- ==== Sys2Proof/Machine/Operands.lean ====
section
/-! DEFINITION. Operand forms (30_encoding.md R59, R74): the register-index operand and its check. An immediate is the
whole byte, used unchanged, and there is no other form. -/

namespace Sys2Proof.Machine

open Sys2Proof

/-- The register a register-index field names, or BoundsError(REGISTER) with the field's value (R59, R74). -/
def checkRegister (f : Byte) : Except CoreError RegIdx :=
  if h : f.toNat < 8 then .ok ⟨f.toNat, h⟩ else .error (.register f)

/-- Run a handler whose format has one register field, after the field's check (R74, R75; log 24). -/
def withRegister (f : Byte) (s : State) (handler : RegIdx → Except CoreError State) :
    Host.Outcome State Fault Refusal :=
  commit s ((checkRegister f).bind handler)

/-- Run a handler whose format has two register fields: byte 1 is checked before byte 2 (R74). -/
def withRegisters (fa fb : Byte) (s : State) (handler : RegIdx → RegIdx → Except CoreError State) :
    Host.Outcome State Fault Refusal :=
  commit s ((checkRegister fa).bind fun a => (checkRegister fb).bind fun b => handler a b)

end Sys2Proof.Machine
end

