-- ==== Sys2Proof/Machine/Alu.lean ====
section
/-! DEFINITION. The meanings of MUL, CMP and ADD (40_alu.md R86-R88). -/

namespace Sys2Proof.Machine

open Sys2Proof

/-- A handler that uses the ALU: run the operation on two registers and write what it returns, a value to `dst` or
the flags; all of these instructions are 3 bytes long (R75, R80). -/
def aluHandler (op : AluOp) (dst a b : RegIdx) (s : State) : Except CoreError State :=
  match alu op (s.reg a) (s.reg b) with
  | .ok (.value v) => .ok ((s.setReg dst v).advance 3)
  | .ok (.flags f) => .ok ((s.setFlags f).advance 3)
  | .error e => .error e

/-- MUL: `x[0] <- aluMul(x[0], x[1])`, whatever the two operand bytes hold (R86, R60). -/
def execMul (s : State) : Host.Outcome State Fault Refusal := commit s (aluHandler .mul 0 0 1 s)

/-- CMP: `(E, L, G) <- aluCmp(x[0], x[1])`, whatever the two operand bytes hold (R87, R60). -/
def execCmp (s : State) : Host.Outcome State Fault Refusal := commit s (aluHandler .cmp 0 0 1 s)

/-- ADD: `x[ra] <- aluAdd(x[ra], x[rb])` (R88). -/
def execAdd (ra rb : Byte) (s : State) : Host.Outcome State Fault Refusal :=
  withRegisters ra rb s fun a b => aluHandler .add a a b s

end Sys2Proof.Machine
end

