-- ==== Sys2Proof/Machine/Control.lean ====
section
/-! DEFINITION. The meanings of JMP, JEQ, JNE and HLT (43_control.md R110-R113). -/

namespace Sys2Proof.Machine

open Sys2Proof

/-- A handler that branches to the address in a register when `taken`, and else falls through its 2 bytes (R76). -/
def branchHandler (taken : Bool) (i : RegIdx) (s : State) : Except CoreError State :=
  .ok (if taken then s.setPc (zext9 (s.reg i)) else s.advance 2)

/-- JMP: always taken (R110). -/
def execJmp (r : Byte) (s : State) : Host.Outcome State Fault Refusal :=
  withRegister r s fun i => branchHandler true i s

/-- JEQ: taken if `E` (R111). -/
def execJeq (r : Byte) (s : State) : Host.Outcome State Fault Refusal :=
  withRegister r s fun i => branchHandler s.flags.e i s

/-- JNE: taken if not `E` (R112). -/
def execJne (r : Byte) (s : State) : Host.Outcome State Fault Refusal :=
  withRegister r s fun i => branchHandler (!s.flags.e) i s

/-- HLT: advance past its byte and halt normally (R113). -/
def execHlt (s : State) : Host.Outcome State Fault Refusal := commit s (.ok (s.advance 1).halt)

end Sys2Proof.Machine
end

