-- ==== Sys2Proof/Machine/LoadOutput.lean ====
section
/-! DEFINITION. The meanings of LDI and PRN (41_load_output.md R95, R96). -/

namespace Sys2Proof.Machine

open Sys2Proof

/-- LDI: `x[r] <- imm` (R95). -/
def execLdi (r imm : Byte) (s : State) : Host.Outcome State Fault Refusal :=
  withRegister r s fun i => .ok ((s.setReg i imm).advance 3)

/-- PRN: `Emit(x[r])` (R96). -/
def execPrn (r : Byte) (s : State) : Host.Outcome State Fault Refusal :=
  withRegister r s fun i => .ok ((s.emit (s.reg i)).advance 2)

end Sys2Proof.Machine
end

