-- ==== Sys2Proof/Machine/Stack.lean ====
section
/-! DEFINITION. The meanings of PUSH and POP (42_stack.md R100-R107). -/

namespace Sys2Proof.Machine

open Sys2Proof

/-- The stack pointer moved by `delta`, or BoundsError(STACK) with the value it would have had: it never wraps (R106). -/
def movedSp (sp : Byte) (delta : Int) : Except CoreError Byte :=
  if sp.toNat + delta < 0 ∨ 255 < sp.toNat + delta then .error (.stack (sp.toNat + delta))
  else .ok (BitVec.ofInt 8 (sp.toNat + delta))

/-- PUSH's handler: decrement, then write at the new pointer. The register is read after the decrement (R101, R15), so
PUSH 7 stores the decremented stack pointer (R104). -/
def pushHandler (i : RegIdx) (s : State) : Except CoreError State :=
  (movedSp s.sp (-1)).bind fun sp1 =>
    let s1 := s.setReg spReg sp1
    .ok ((s1.memWrite s1.sp (s1.reg i)).advance 2)

/-- POP's handler: read at the pointer, write the register, then increment. The pointer is read after the write (R102,
R15), so POP 7 increments the popped byte (R105). -/
def popHandler (i : RegIdx) (s : State) : Except CoreError State :=
  let s1 := s.setReg i (s.memRead s.sp)
  (movedSp s1.sp 1).bind fun sp1 => .ok ((s1.setReg spReg sp1).advance 2)

/-- PUSH (R101). -/
def execPush (r : Byte) (s : State) : Host.Outcome State Fault Refusal :=
  withRegister r s fun i => pushHandler i s

/-- POP (R102). -/
def execPop (r : Byte) (s : State) : Host.Outcome State Fault Refusal :=
  withRegister r s fun i => popHandler i s

end Sys2Proof.Machine
end

