-- ==== Sys2Proof/Machine/Fetch.lean ====
section
/-! DEFINITION. The dispatcher's fetch, decode and extent check (30_encoding.md R71-R73), and placing an instruction
where it fetches. -/

namespace Sys2Proof.Machine

open Sys2Proof

/-- The bytes a fetch can see: at most three from `pc` on, those inside the address space (R71, R73). Fetch reads the
current memory (20_memory.md R52). -/
def State.fetchBytes (s : State) : List Byte :=
  (List.range' s.pc.toNat (min maxInstrBytes (memSize - s.pc.toNat))).map s.mem.read

/-- Fetch, decode and extent check in their order (R71, R72, R73, R79): the instruction at `pc`, or the error. -/
def State.fetchInstr (s : State) : Except CoreError Instr :=
  match decode s.cfg s.fetchBytes with
  | .ok (i, _) => .ok i
  | .error .noOpcodeByte => .error (.fetch s.pc.toNat)
  | .error (.unknownOpcode op) => .error (.unknownInstruction op)
  | .error .truncated => .error (.fetch memSize)

/-- The parameters under which a byte list's first byte is decodable: ENABLE_ADD is turned on for ADD's opcode byte
(log 3), nothing else changes. -/
def enablingAdd (c : Config) (bytes : List Byte) : Config :=
  { c with enableAdd := c.enableAdd || bytes.head? == some c.opcodeMap.add }

/-- The state with a table word's bytes loaded at `pc` and the core Running: the load port and Run (00_scope.md R5,
R6), and for ADD's opcode the build option that makes it decodable (log 3, log 6). -/
def State.placeWord (s : State) (nbits w : Nat) : State :=
  { s with
    cfg := enablingAdd s.cfg (tableBytes nbits w)
    mem := s.mem.writeList s.pc.toNat (tableBytes nbits w)
    status := .running }

end Sys2Proof.Machine
end

