-- ==== Sys2Proof/Machine/Step.lean ====
section
/-! DEFINITION. One step of the dispatcher (30_encoding.md R70-R79). -/

namespace Sys2Proof.Machine

open Sys2Proof

/-- A step executes exactly one whole instruction, and exists only while `status = Running` (R70): fetch, decode and
extent check, then the instruction's register check and handler. The first check that raises ends it (R79). -/
def step (s : State) : Host.Outcome State Fault Refusal :=
  match s.status with
  | .halted => .fault .noStepWhileHalted
  | .running =>
    match s.fetchInstr with
    | .error e => .next (s.raise e)
    | .ok i => exec i s

/-- `s` with a table word stored where `step` fetches its next instruction, and running (log 6). -/
def State.withFetchWord (s : State) (nbits w : Nat) : State := s.placeWord nbits w

end Sys2Proof.Machine
end

