-- ==== Sys2Proof/Machine/Ports.lean ====
section
/-! DEFINITION. The interfaces of the block (00_scope.md R5-R9; 70_reset_and_hazards.md R142-R144): the load port, Run,
the status port, the output port and the debug observation. The host acts between steps, never inside one. -/

namespace Sys2Proof.Machine

open Sys2Proof

/-! ### Host to core -/

/-- The not-yet-started state: `status = Halted` and `halt_reason = NONE` (R5, R6). -/
abbrev State.NotStarted (s : State) : Prop := s.status = .halted ∧ s.haltReason = .none

/-- `LoadWrite(addr, byte)` (R5): `MemWrite(addr, 1, byte)`, open only while the core has not yet been started and
only for an address in 0..255; otherwise the port is closed and the answer is none (log 7). -/
def State.loadWrite (s : State) (addr : Nat) (v : Byte) : Option State :=
  if s.NotStarted ∧ addr < memSize then some (s.memWrite (BitVec.ofNat 8 addr) v) else none

/-- `Run` (R6): from Halted to Running in the not-yet-started state, and no effect in any other. -/
def State.runInput (s : State) : State :=
  if s.NotStarted then { s with status := .running } else s

/-- The host's inputs, all there are (60_exceptions.md R127). -/
inductive HostInput where
  | loadWrite (addr : Nat) (v : Byte)
  | run
deriving DecidableEq, Repr

/-- One host input: the state after it, or none where the load port is closed. -/
def State.accept (s : State) : HostInput → Option State
  | .loadWrite addr v => s.loadWrite addr v
  | .run => some s.runInput

/-- The loader's writes: sequentially, from address `addr` on (R5, R142). -/
def State.loadFrom (s : State) (addr : Nat) : List Byte → Option State
  | [] => some s
  | v :: vs => (s.loadWrite addr v).bind fun t => t.loadFrom (addr + 1) vs

/-- Boot (R142): reset, load the image at 0..n-1, Run. An image of more than 256 bytes is malformed: the core is never
started and stays in its reset state (R144). `c` is the configuration the engine is built with. -/
def boot (c : Config) (image : List Byte) : State :=
  let built := { State.reset with cfg := c }
  if image.length ≤ imageMax then ((built.loadFrom 0 image).map State.runInput).getD built else built

/-! ### Core to host -/

/-- The numeric codes the status port reports (10_state.md R28). -/
def HaltReason.code : HaltReason → Nat
  | .none => 0
  | .hlt => 1
  | .unknownInstruction => 2
  | .boundsError => 3
  | .unsupportedAluOperation => 4

/-- The status port (R8): read-only. -/
structure StatusPort where
  status : Status
  haltCode : Nat
  errorInfo : Option ErrorInfo
deriving DecidableEq, Repr

/-- What the status port shows. -/
def State.statusPort (s : State) : StatusPort :=
  { status := s.status, haltCode := s.haltReason.code, errorInfo := s.errorInfo }

/-- The output events between two states: the values appended to `out` (R7, R30). -/
def outputSince (s t : State) : List Byte := t.out.drop s.out.length

/-- All that the debug observation reads: the pc, every memory byte and the 8 registers (R9), and the flags and the output
history, since after a halt ALL state stays readable through it and the status port (60_exceptions.md R136; that the flags
and `out` are on this side of the two is log 34). -/
structure Observation where
  pc : PcWord
  /-- The byte at each address 0..255, in order. -/
  bytes : List Byte
  regs : Vector Byte 8
  flags : Flags
  out : List Byte
deriving DecidableEq, Repr

/-- Observe the core, at any time; a pure reading, so it changes no state (R9). -/
def State.observe (s : State) : Observation :=
  { pc := s.pc
    bytes := (List.range memSize).map s.mem.read
    regs := s.x
    flags := s.flags
    out := s.out }

/-- The debug observation's dump: the pc, the next three memory bytes and all 8 registers (R9; 60_exceptions.md R135).
Near the end of memory only the bytes that exist are shown (log 26). -/
structure Trace where
  pc : PcWord
  bytes : List Byte
  regs : Vector Byte 8
deriving DecidableEq, Repr

/-- What the dump shows; a pure reading, so it changes no state (R9). -/
def State.trace (s : State) : Trace :=
  { pc := s.pc
    bytes := (List.range' s.pc.toNat (min 3 (memSize - s.pc.toNat))).map s.mem.read
    regs := s.x }

end Sys2Proof.Machine
end

