-- ==== Sys2Proof/Machine/Text.lean ====
section
/-! DEFINITION. The two text forms of a program: the image text (30_encoding.md R66) and the assembler's notation (R65,
R67). Both stand beside the machine: they make the bytes that the load port then writes. -/

namespace Sys2Proof.Machine

open Sys2Proof

/-! ### Characters and fields -/

/-- White space inside a line (log 27). -/
def isBlankChar (ch : Char) : Bool := ch == ' ' || ch == '\t' || ch == '\r'

/-- Cut a text at every character that `sep` picks. -/
def splitText (sep : Char → Bool) : List Char → List (List Char)
  | [] => [[]]
  | ch :: rest =>
    match splitText sep rest with
    | [] => [[]]
    | part :: parts => if sep ch then [] :: part :: parts else (ch :: part) :: parts

/-- A text without the white space at its two ends. -/
def trimText (cs : List Char) : List Char :=
  ((cs.dropWhile isBlankChar).reverse.dropWhile isBlankChar).reverse

/-- The value of a digit in base 16 or below. -/
def digitValue (ch : Char) : Option Nat :=
  let n := ch.toNat
  if 48 ≤ n ∧ n ≤ 57 then some (n - 48)
  else if 97 ≤ n ∧ n ≤ 102 then some (n - 87)
  else if 65 ≤ n ∧ n ≤ 70 then some (n - 55)
  else none

/-- Read digits of a base onto an accumulated value. -/
def readDigits (base acc : Nat) : List Char → Option Nat
  | [] => some acc
  | ch :: rest =>
    match digitValue ch with
    | some d => if d < base then readDigits base (acc * base + d) rest else none
    | none => none

/-- An unsigned number of at least one digit that fits a byte. -/
def readByte (base : Nat) (digits : List Char) : Option Byte :=
  match digits with
  | [] => none
  | _ :: _ =>
    match readDigits base 0 digits with
    | some n => if n < 256 then some (BitVec.ofNat 8 n) else none
    | none => none

/-! ### The image text (R66) -/

/-- The token of a line: its first field before any `#` (R66; 92_eei_decisions.md D27). -/
def imageToken (line : List Char) : List Char :=
  ((line.takeWhile (· != '#')).dropWhile isBlankChar).takeWhile (fun ch => !isBlankChar ch)

/-- The byte of a token of 1 to 8 binary digits, most significant bit first (R11, R66, D27). -/
def imageByte (token : List Char) : Option Byte :=
  if token.length ≤ 8 then readByte 2 token else none

/-- The bytes of an image text, one a line, blank and comment-only lines skipped; none where it is malformed (R66). -/
def parseImage (text : List Char) : Option (List Byte) :=
  (((splitText (· == '\n') text).map imageToken).filter (fun token => token != [])).mapM imageByte

/-- Boot from an image text: a malformed one never starts the core (70_reset_and_hazards.md R144). -/
def bootText (c : Config) (text : List Char) : State :=
  match parseImage text with
  | some image => boot c image
  | none => { State.reset with cfg := c }

/-! ### The assembler's notation (R65, R67) -/

/-- The spelling of each mnemonic (R65). -/
def mnemonicText : Handler → List Char
  | .hlt => ['H', 'L', 'T']
  | .ldi => ['L', 'D', 'I']
  | .prn => ['P', 'R', 'N']
  | .mul => ['M', 'U', 'L']
  | .cmp => ['C', 'M', 'P']
  | .push => ['P', 'U', 'S', 'H']
  | .pop => ['P', 'O', 'P']
  | .jmp => ['J', 'M', 'P']
  | .jeq => ['J', 'E', 'Q']
  | .jne => ['J', 'N', 'E']
  | .add => ['A', 'D', 'D']

/-- A register operand: a bare index, or `R0` .. `R7` (R65). A bare index may be any byte; the core checks it (R74). -/
def parseRegister (field : List Char) : Option Byte :=
  match field with
  | 'R' :: digits =>
    match digits, readByte 8 digits with
    | [_], some r => some r
    | _, _ => none
  | _ => readByte 10 field

/-- An immediate: decimal, `0x` hexadecimal or `0b` binary (R65). -/
def parseImmediate (field : List Char) : Option Byte :=
  match field with
  | '0' :: 'x' :: digits => readByte 16 digits
  | '0' :: 'b' :: digits => readByte 2 digits
  | _ => readByte 10 field

/-- One register operand and nothing else. -/
def parseOne (mk : Byte → Instr) : List (List Char) → Option Instr
  | [r] => (parseRegister r).map mk
  | _ => none

/-- `MUL` and `CMP`: no operands, or `R0,R1`; both assemble to the operand bytes 0x00, 0x01 (R65, R67). -/
def parseImplicit (mk : Byte → Byte → Instr) : List (List Char) → Option Instr
  | [] => some (mk 0 1)
  | [a, b] => if parseRegister a = some 0 ∧ parseRegister b = some 1 then some (mk 0 1) else none
  | _ => none

/-- The operand forms by mnemonic (R65). -/
def parseOperands (h : Handler) (fields : List (List Char)) : Option Instr :=
  match h with
  | .hlt => if fields = [] then some .hlt else none
  | .ldi =>
    match fields with
    | [r, v] => (parseRegister r).bind fun r => (parseImmediate v).map fun v => .ldi r v
    | _ => none
  | .prn => parseOne .prn fields
  | .mul => parseImplicit .mul fields
  | .cmp => parseImplicit .cmp fields
  | .push => parseOne .push fields
  | .pop => parseOne .pop fields
  | .jmp => parseOne .jmp fields
  | .jeq => parseOne .jeq fields
  | .jne => parseOne .jne fields
  | .add =>
    match fields with
    | [a, b] => (parseRegister a).bind fun a => (parseRegister b).map fun b => .add a b
    | _ => none

/-- One trimmed, non-empty statement: a mnemonic of the branch table, then operands separated by commas (R65; log 28). -/
def parseStatement (c : Config) (cs : List Char) : Option Instr :=
  let word := cs.takeWhile (fun ch => !isBlankChar ch)
  let rest := trimText (cs.dropWhile (fun ch => !isBlankChar ch))
  let fields := if rest = [] then [] else (splitText (· == ',') rest).map trimText
  (c.handlers.find? (fun h => mnemonicText h == word)).bind fun h => parseOperands h fields

/-- Assemble a program: statements separated by `;` or a newline (R65), each encoded in order. -/
def assemble (c : Config) (text : List Char) : Option (List Byte) :=
  ((((splitText (fun ch => ch == ';' || ch == '\n') text).map trimText).filter (fun cs => cs != [])).mapM
    (parseStatement c)).map fun is => is.flatMap (encode c)

end Sys2Proof.Machine
end

