-- ==== Sys2Proof/Safety.lean ====
section
/-! DEFINITION. Runs and their outcomes (60_exceptions.md R137), and the invariant of the machine's states. -/

namespace Sys2Proof.Machine

open Sys2Proof

/-! ### Runs -/

/-- The dispatcher's loop (30_encoding.md R77), cut off after `n` steps: it stays where there is no step. -/
def runSteps : Nat → State → State
  | 0, s => s
  | n + 1, s =>
    match step s with
    | .next t => runSteps n t
    | .fault _ => s
    | .refused _ => s

/-- Execute instructions one after the other, as if each were fetched in turn: for claims about consecutive
instructions. A raise ends it. -/
def execAll : List Instr → State → Host.Outcome State Fault Refusal
  | [], s => .next s
  | i :: is, s =>
    match exec i s with
    | .next t => if t.status = .running then execAll is t else .next t
    | .fault f => .fault f
    | .refused r => .refused r

/-- Normal end, the only good final state (R137). -/
abbrev State.NormalEnd (s : State) : Prop := s.status = .halted ∧ s.haltReason = .hlt

/-- The halt reasons of a fault: codes 2, 3 and 4 (R121, R137). -/
abbrev HaltReason.IsError (r : HaltReason) : Prop :=
  r = .unknownInstruction ∨ r = .boundsError ∨ r = .unsupportedAluOperation

/-- Fault: a final, bad state (R137). -/
abbrev State.Faulted (s : State) : Prop := s.status = .halted ∧ s.haltReason.IsError

/-- Divergence: Running forever (R77, R137). -/
def State.Diverges (s : State) : Prop := ∀ n, (runSteps n s).status = .running

/-! ### The invariant -/

/-- The `halt_reason` an error record's kind belongs to (10_state.md R29). -/
def ErrorKind.reason : ErrorKind → HaltReason
  | .opcode => .unknownInstruction
  | .fetch => .boundsError
  | .register => .boundsError
  | .stack => .boundsError
  | .aluOp => .unsupportedAluOperation

/-- The values R29 gives each kind's record: an opcode byte, the address 256, a register field above 7, -1 or 256, an
operation name. -/
def ErrorInfo.ValueFits (e : ErrorInfo) : Prop :=
  match e.kind, e.value with
  | .opcode, .num v => 0 ≤ v ∧ v ≤ 255
  | .fetch, .num v => v = 256
  | .register, .num v => 7 < v ∧ v ≤ 255
  | .stack, .num v => v = -1 ∨ v = 256
  | .aluOp, .opName _ => True
  | .opcode, .opName _ => False
  | .fetch, .opName _ => False
  | .register, .opName _ => False
  | .stack, .opName _ => False
  | .aluOp, .num _ => False

/-- What holds of every state of a core: what the dispatcher's fields say agrees (R27-R29), and the rest is what the
spec says it can be. -/
structure State.Inv (s : State) : Prop where
  /-- The opcode map is one R56 admits. -/
  admissible : s.cfg.Admissible
  /-- Memory keeps its canonical form inside 0..255 (R33). -/
  memWf : Memory.wf s.mem
  /-- `pc` stays in 0..256 (R24, R76). -/
  pcRange : s.pc.toNat ≤ 256
  /-- At most one flag is true: none after reset, one after a CMP (R35, R83). -/
  flagsExclusive : ¬(s.flags.e = true ∧ s.flags.l = true) ∧ ¬(s.flags.e = true ∧ s.flags.g = true) ∧
    ¬(s.flags.l = true ∧ s.flags.g = true)
  /-- A Running core has not halted yet (R28). -/
  runningReason : s.status = .running → s.haltReason = .none
  /-- No program raises UnsupportedALUOperation (R84, R124). -/
  noAluError : s.haltReason ≠ .unsupportedAluOperation
  /-- `error_info` is none exactly when `halt_reason` is no error (R29). -/
  infoIffError : s.errorInfo.isSome = true ↔ s.haltReason.IsError
  /-- A record holds the faulting instruction's address, which is still the pc, and a kind and value that fit (R29,
  R125). -/
  infoFits : ∀ e, s.errorInfo = some e → e.pc = s.pc ∧ e.kind.reason = s.haltReason ∧ e.ValueFits

end Sys2Proof.Machine
end

