-- ==== Sys2Proof/Certificates/Slice0/Obligations.lean ====
section
/-! DEFINITION. The statements about the model, from the numbered rules of spec/, for the provers. -/

namespace Sys2Proof.Claim

open Sys2Proof Sys2Proof.Machine

/-! ### Words the statements share, written from the rules and not from the model's own operations -/

/-- The state after a fatal error (60_exceptions.md R125): halted, with the reason and the record, all else kept. What is
kept and recorded is the spec's decisions D14 and D15 (log 18); that an error is a next state is log 4. -/
def errorState (s : State) (reason : HaltReason) (kind : ErrorKind) (value : Int) : State :=
  { s with
    status := .halted
    haltReason := reason
    errorInfo := some { pc := s.pc, kind := kind, value := .num value } }

/-- The core is Running with a handler's opcode byte at `pc`, under a map that R56 admits. -/
structure AtOpcode (h : Handler) (s : State) : Prop where
  running : s.status = .running
  admissible : s.cfg.Admissible
  decodable : h ∈ s.cfg.handlers
  inMemory : s.pc.toNat ≤ 255
  opcode : s.mem.read s.pc.toNat = s.cfg.opcodeMap.byte h

/-- The core is Running with all the bytes of instruction `i` in memory from `pc` on. -/
structure Stands (i : Instr) (s : State) : Prop where
  running : s.status = .running
  admissible : s.cfg.Admissible
  decodable : s.cfg.Decodes i
  fits : s.pc.toNat + i.length ≤ 256
  bytes : (List.range' s.pc.toNat i.length).map s.mem.read = encode s.cfg i

/-- Encoding and exceptions of a 2-byte instruction with one register operand: the default opcode byte (general knowledge
in the spec itself, R56, log 2), format FR under every admitted map, the FETCH error at pc = 255 and the REGISTER error
for an operand above 7. -/
def FormFR (h : Handler) (dflt : Byte) (mk : Byte → Instr) : Prop :=
  defaultOpcodeMap.byte h = dflt ∧
  (∀ c r rest, c.Admissible → h ∈ c.handlers → decode c (c.opcodeMap.byte h :: r :: rest) = .ok (mk r, rest)) ∧
  (∀ s, AtOpcode h s → s.pc.toNat = 255 → step s = .next (errorState s .boundsError .fetch 256)) ∧
  (∀ r s, 7 < r.toNat → exec (mk r) s = .next (errorState s .boundsError .register r.toNat))

/-- Encoding and FETCH error of a 3-byte instruction: the default opcode byte (general knowledge in the spec itself, R56,
log 2), two operand bytes under every admitted map, and the error at pc = 254 or 255. -/
def FormThree (h : Handler) (dflt : Byte) (mk : Byte → Byte → Instr) : Prop :=
  defaultOpcodeMap.byte h = dflt ∧
  (∀ c b1 b2 rest, c.Admissible → h ∈ c.handlers →
    decode c (c.opcodeMap.byte h :: b1 :: b2 :: rest) = .ok (mk b1 b2, rest)) ∧
  (∀ s, AtOpcode h s → 254 ≤ s.pc.toNat → step s = .next (errorState s .boundsError .fetch 256))

/-- The value of the register a field names; 0 where it names none. -/
def regAt (s : State) (f : Byte) : Byte := if h : f.toNat < 8 then s.reg ⟨f.toNat, h⟩ else 0

/-- The "writes" column of 10_state.md R21, the general registers. -/
def writesReg (i : Instr) (k : RegIdx) : Prop :=
  match i with
  | .hlt => False
  | .ldi r _ => k.val = r.toNat
  | .prn _ => False
  | .mul _ _ => k = 0
  | .cmp _ _ => False
  | .push _ => k = 7
  | .pop r => k.val = r.toNat ∨ k = 7
  | .jmp _ => False
  | .jeq _ => False
  | .jne _ => False
  | .add ra _ => k.val = ra.toNat

/-- The "reads" column of 10_state.md R21, the general registers. -/
def readsReg (i : Instr) (k : RegIdx) : Prop :=
  match i with
  | .hlt => False
  | .ldi _ _ => False
  | .prn r => k.val = r.toNat
  | .mul _ _ => k = 0 ∨ k = 1
  | .cmp _ _ => k = 0 ∨ k = 1
  | .push r => k = 7 ∨ k.val = r.toNat
  | .pop _ => k = 7
  | .jmp r => k.val = r.toNat
  | .jeq r => k.val = r.toNat
  | .jne r => k.val = r.toNat
  | .add ra rb => k.val = ra.toNat ∨ k.val = rb.toNat

/-- The length of each opcode's instructions, as the table of 30_encoding.md R57 writes it. -/
def tableLength : Handler → Nat
  | .hlt => 1
  | .ldi => 3
  | .prn => 2
  | .mul => 3
  | .cmp => 3
  | .push => 2
  | .pop => 2
  | .jmp => 2
  | .jeq => 2
  | .jne => 2
  | .add => 3

/-- Where 30_encoding.md R76 puts the pc when an instruction completes. -/
def pcAfter (i : Instr) (s : State) : Nat :=
  match i with
  | .jmp r => (regAt s r).toNat
  | .jeq r => if s.flags.e then (regAt s r).toNat else s.pc.toNat + 2
  | .jne r => if s.flags.e then s.pc.toNat + 2 else (regAt s r).toNat
  | .hlt => s.pc.toNat + 1
  | .ldi _ _ => s.pc.toNat + 3
  | .prn _ => s.pc.toNat + 2
  | .mul _ _ => s.pc.toNat + 3
  | .cmp _ _ => s.pc.toNat + 3
  | .push _ => s.pc.toNat + 2
  | .pop _ => s.pc.toNat + 2
  | .add _ _ => s.pc.toNat + 3

end Sys2Proof.Claim

open Sys2Proof Sys2Proof.Machine Sys2Proof.Claim

/-! ### Encodings -/

/-- Decode inverts encode, for EVERY instruction of the branch table, every operand byte and every map that R56 admits
(ADD where ENABLE_ADD is true, decisions D2, D6), whatever bytes follow. Registers 8..255 are included: they decode, and raise when run.
Rests on 30_encoding.md R55-R61. -/
def Obligations.DecodeInvertsEncode : Prop :=
  ∀ (c : Config) (i : Instr) (rest : List Byte), c.Admissible → c.Decodes i →
    decode c (encode c i ++ rest) = .ok (i, rest)

/-- Bytes that decode are the encoding of what they decode to, followed by what is left: no bit is lost, under every
map. Rests on 30_encoding.md R58, R61. -/
def Obligations.DecodedBytesAreTheEncoding : Prop :=
  ∀ (c : Config) (bytes : List Byte) (i : Instr) (rest : List Byte), decode c bytes = .ok (i, rest) →
    bytes = encode c i ++ rest ∧ c.Decodes i

/-- The length is a function of the opcode byte alone, through R57's table (30_encoding.md R57, R64; ADD's length 3 is the
spec's decision D6, the length 3 of MUL and CMP D3, log 13); an opcode not in the table is unknown whatever follows it. -/
def Obligations.LengthDependsOnOpcodeAlone : Prop :=
  (∀ (c : Config) (op : Byte) (h : Handler), c.branchTable op = some h →
    ∀ (rest : List Byte) (i : Instr) (left : List Byte), decode c (op :: rest) = .ok (i, left) →
      i.handler = h ∧ i.length = tableLength h ∧ (op :: rest).length = tableLength h + left.length) ∧
  (∀ (c : Config) (op : Byte) (h : Handler), c.branchTable op = some h →
    ∀ rest : List Byte, (∃ i left, decode c (op :: rest) = .ok (i, left)) ↔ tableLength h ≤ (op :: rest).length) ∧
  (∀ (c : Config) (op : Byte) (rest : List Byte), c.branchTable op = none →
    decode c (op :: rest) = .error (.unknownOpcode op))

/-- 30_encoding.md R62's counts: under every admitted map 246 opcode bytes have no handler (245 with ENABLE_ADD), the
byte 0x00 is one of them, and each is rejected by name (the map a parameter: decision D2; ENABLE_ADD: D6). -/
def Obligations.UnassignedOpcodesAreIllegal : Prop :=
  ∀ c : Config, c.Admissible →
    ((List.range 256).filter (fun n => (c.branchTable (BitVec.ofNat 8 n)).isNone)).length =
      (if c.enableAdd then 245 else 246) ∧
    c.branchTable 0 = none ∧
    ∀ (op : Byte) (rest : List Byte), op ∉ c.opcodes → decode c (op :: rest) = .error (.unknownOpcode op)

/-- 30_encoding.md R55: an instruction is one opcode byte and then 0, 1 or 2 operand bytes, whole bytes each, at consecutive
increasing addresses from the pc on; each opcode has one fixed length, and lengths of 1, 2 and 3 bytes occur. -/
def Obligations.OpcodeThenOperandBytes : Prop :=
  (∀ (c : Config) (bytes : List Byte) (i : Instr) (rest : List Byte), decode c bytes = .ok (i, rest) →
    ∃ op ops, bytes = op :: (ops ++ rest) ∧ c.branchTable op = some i.handler ∧ i.operands = ops ∧ ops.length ≤ 2) ∧
  (∀ (c : Config) (op : Byte) (bytes bytes' rest rest' : List Byte) (i i' : Instr),
    decode c (op :: bytes) = .ok (i, rest) → decode c (op :: bytes') = .ok (i', rest') →
    i.operands.length = i'.operands.length) ∧
  (∀ (s : State) (k : Nat), k < 3 → s.pc.toNat + k ≤ 255 →
    s.fetchBytes[k]? = some (s.mem.read (s.pc.toNat + k))) ∧
  (∀ c : Config, (encode c .hlt).length = 1 ∧ (∀ r, (encode c (.prn r)).length = 2) ∧
    ∀ r imm, (encode c (.ldi r imm)).length = 3)

/-- Each of the eleven default opcode bytes of 30_encoding.md R56, with the operand bytes of R58, decodes to the
instruction it stands for; the byte of a disabled ADD is unknown (decision D6). The byte values are the spec's general
knowledge (decision D2, log 2). -/
def Obligations.DefaultWordsDecode : Prop :=
  decode defaultConfig [0b00000001] = .ok (.hlt, []) ∧
  decode defaultConfig [0b10000010, 0b00000000, 0b00001000] = .ok (.ldi 0 8, []) ∧
  decode defaultConfig [0b01000111, 0b00000000] = .ok (.prn 0, []) ∧
  decode defaultConfig [0b10100010, 0b00000000, 0b00000001] = .ok (.mul 0 1, []) ∧
  decode defaultConfig [0b10100111, 0b00000000, 0b00000001] = .ok (.cmp 0 1, []) ∧
  decode defaultConfig [0b01000101, 0b00000111] = .ok (.push 7, []) ∧
  decode defaultConfig [0b01000110, 0b00000011] = .ok (.pop 3, []) ∧
  decode defaultConfig [0b01010100, 0b00000010] = .ok (.jmp 2, []) ∧
  decode defaultConfig [0b01010101, 0b00000010] = .ok (.jeq 2, []) ∧
  decode defaultConfig [0b01010110, 0b00000010] = .ok (.jne 2, []) ∧
  decode tableConfig [0b10100000, 0b00000010, 0b00000011] = .ok (.add 2 3, []) ∧
  decode defaultConfig [0b10100000, 0b00000000, 0b00000001] = .error (.unknownOpcode 160)

/-! ### The dispatcher -/

/-- A Running core always has exactly one step; a Halted core has none (30_encoding.md R70, 60_exceptions.md R137, the spec's
own decision D13 and derivation). R137 says a step is "either the next state or a fault": that a fatal error is a next state
here is log 4 (DEDUCED), and that "no step" is written as a fault is log 5. -/
def Obligations.RunningStepsAndHaltedDoesNot : Prop :=
  (∀ s : State, s.status = .running → ∃ t, step s = .next t) ∧
  (∀ s : State, s.status = .halted → step s = .fault .noStepWhileHalted)

/-- A fetch past the last memory address raises BoundsError(FETCH) (30_encoding.md R71, decision D8). What an error
keeps and records is the spec's decisions D14 and D15 (log 18), and that it is a next state is log 4. -/
def Obligations.FetchPastMemoryRaises : Prop :=
  ∀ s : State, s.status = .running → 255 < s.pc.toNat → s.pc.toNat ≤ 256 →
    step s = .next (errorState s .boundsError .fetch 256)

/-- Look the opcode up (30_encoding.md R72): not found, UnknownInstruction with the opcode byte; found, that handler's
instruction runs where its bytes are in memory (R73, decision D10, log 10; ADD's length is decision D6). What an error
keeps and records is the spec's decisions D14 and D15 (log 18), and that it is a next state is log 4. -/
def Obligations.OpcodeLookup : Prop :=
  ∀ s : State, s.status = .running → s.pc.toNat ≤ 255 →
    (s.cfg.branchTable (s.mem.read s.pc.toNat) = none →
      step s = .next (errorState s .unknownInstruction .opcode (s.mem.read s.pc.toNat).toNat)) ∧
    (∀ h, s.cfg.branchTable (s.mem.read s.pc.toNat) = some h → s.pc.toNat + tableLength h ≤ 256 →
      ∃ i, i.handler = h ∧ step s = exec i s)

/-- Every byte of an instruction must lie in memory, the ignored ones included (30_encoding.md R73, decisions D3, D10,
log 10, 13; ADD's length D6); the check comes before any register check (R79, decision D24, log 19). What an error keeps
and records is the spec's decisions D14 and D15 (log 18), and that it is a next state is log 4. -/
def Obligations.ExtentCheckRaises : Prop :=
  ∀ (h : Handler) (s : State), AtOpcode h s → 256 < s.pc.toNat + tableLength h →
    step s = .next (errorState s .boundsError .fetch 256)

/-- The first register-index field above 7, in field order, raises BoundsError(REGISTER) with its value: also for a
branch that would not be taken, and before any stack check. A Running core raises that error for nothing else: not for
LDI's immediate and not for the ignored bytes of MUL and CMP, whatever they hold (30_encoding.md R74, R79, decisions
D11, D24; that the check stands at the head of exec is log 24). What an error keeps and records is the spec's decisions
D14 and D15 (log 18), and that it is a next state is log 4. -/
def Obligations.RegisterFieldsAreChecked : Prop :=
  (∀ (i : Instr) (s : State) (f : Byte), i.registerFields.find? (fun f => decide (7 < f.toNat)) = some f →
    exec i s = .next (errorState s .boundsError .register f.toNat)) ∧
  (∀ (i : Instr) (s : State) (v : Int), s.status = .running →
    exec i s = .next (errorState s .boundsError .register v) →
    ∃ f, i.registerFields.find? (fun f => decide (7 < f.toNat)) = some f ∧ v = f.toNat) ∧
  (∀ (r b1 b2 : Byte) (s : State) (v : Int), s.status = .running →
    (r.toNat < 8 → exec (.ldi r b1) s ≠ .next (errorState s .boundsError .register v)) ∧
    exec (.mul b1 b2) s ≠ .next (errorState s .boundsError .register v) ∧
    exec (.cmp b1 b2) s ≠ .next (errorState s .boundsError .register v))

/-- A step runs the decoded instruction: where the bytes at the pc decode to `i`, the step of a Running core is `exec i`,
with nothing around it (30_encoding.md R70, R75). -/
def Obligations.StepRunsDecodedInstruction : Prop :=
  ∀ (s : State) (i : Instr) (rest : List Byte), s.status = .running → decode s.cfg s.fetchBytes = .ok (i, rest) →
    step s = exec i s

/-- Where an instruction's encoding stands in memory at the pc, the step runs that instruction, under every admitted
map, up to the last address (30_encoding.md R55, R71-R75; ADD's length is decision D6, that of MUL and CMP D3). -/
def Obligations.StepRunsEncodedInstruction : Prop :=
  ∀ (i : Instr) (s : State), Stands i s → step s = exec i s

/-- Where a completed instruction leaves the pc (30_encoding.md R76): at its own length further on, or at the branch target,
and so in 0..256, wherever the instruction's bytes fit in memory (the extent check, decision D10, log 10). HLT's one byte
on is the spec's decision D9 (log 11), ADD's length 3 its decision D6. -/
def Obligations.PcAdvance : Prop :=
  ∀ (i : Instr) (s t : State), i.WellFormed → s.haltReason = .none → s.pc.toNat + tableLength i.handler ≤ 256 →
    exec i s = .next t → ¬t.haltReason.IsError → t.pc.toNat = pcAfter i s ∧ t.pc.toNat ≤ 256

/-! ### The invariant, and what never changes -/

/-- The headline invariant: the opcode map stays admissible, memory canonical, the pc in 0..256, at most one flag true,
and `status`, `halt_reason` and `error_info` agree, over EVERY step from every state that has it (the pc's range is decision
D9, log 11; the flags' D5; the records' D14 and D15; the map and the canonical form of memory are the model's, log 1, 33). -/
def Obligations.StepKeepsInvariant : Prop := ∀ s t : State, s.Inv → step s = .next t → t.Inv

/-- The invariant holds at reset (whose zeros are decision D17, log 9, and whose map is log 1, 2). -/
def Obligations.ResetMeetsInvariant : Prop := State.reset.Inv

/-- The host's inputs keep the invariant too (00_scope.md R5, R6, decisions D18, D19). -/
def Obligations.HostInputsKeepInvariant : Prop :=
  ∀ (s t : State) (inp : HostInput), s.Inv → s.accept inp = some t → t.Inv

/-- 30_encoding.md R78: no step changes which handler an opcode byte selects; nor does a host input. -/
def Obligations.BranchTableNeverChanges : Prop :=
  (∀ s t : State, step s = .next t → ∀ op, t.cfg.branchTable op = s.cfg.branchTable op) ∧
  (∀ (s t : State) (inp : HostInput), s.accept inp = some t → ∀ op, t.cfg.branchTable op = s.cfg.branchTable op)

/-! ### Errors and halting -/

/-- Errors are precise: a step that ends in an error leaves every register, flag, memory byte, output and the pc as they
were, and records that pc (60_exceptions.md R125, R126, decisions D14, D15, log 18; that an error is a next state is log 4). -/
def Obligations.ErrorsArePrecise : Prop :=
  ∀ s t : State, s.haltReason = .none → step s = .next t → t.haltReason.IsError →
    t.status = .halted ∧ t.cfg = s.cfg ∧ t.mem = s.mem ∧ t.x = s.x ∧ t.pc = s.pc ∧ t.flags = s.flags ∧ t.out = s.out ∧
      ∃ e, t.errorInfo = some e ∧ e.pc = s.pc ∧ e.kind.reason = t.haltReason

/-- `halt_reason` changes only from NONE, once, in the step that halts the core: a step is taken only in a state whose
`halt_reason` is NONE, and ends Running with NONE or Halted with another. No host input changes it (10_state.md R28,
decision D15). -/
def Obligations.HaltReasonSetOnce : Prop :=
  (∀ s t : State, s.Inv → step s = .next t → s.haltReason = .none ∧
    ((t.status = .running ∧ t.haltReason = .none) ∨ (t.status = .halted ∧ t.haltReason ≠ .none))) ∧
  (∀ (s t : State) (inp : HostInput), s.accept inp = some t → t.haltReason = s.haltReason)

/-- UnsupportedALUOperation is raised by every ALU name outside the operation set, and by no step (40_alu.md R84,
60_exceptions.md R124, decision D25, log 25). -/
def Obligations.AluErrorUnreachable : Prop :=
  (∀ (name : String) (a b : Byte), alu (.other name) a b = .error (.unsupportedAluOperation name)) ∧
  (∀ s t : State, s.haltReason ≠ .unsupportedAluOperation → step s = .next t →
    t.haltReason ≠ .unsupportedAluOperation)

/-- The halted state is terminal: no step leaves it and no host input changes it (60_exceptions.md R129; that "no step" is
written as a fault is the model's choice, log 5). -/
def Obligations.HaltIsTerminal : Prop :=
  ∀ s : State, s.status = .halted → s.haltReason ≠ .none →
    step s = .fault .noStepWhileHalted ∧ (∀ n, runSteps n s = s) ∧
    (∀ (inp : HostInput) (t : State), s.accept inp = some t → t = s)

/-! ### What each instruction does -/

/-- LDI (41_load_output.md R95): its encoding, its exceptions, and its effect for every register and immediate, the
stack pointer included (decision D7, log 16). The default byte 0x82 is the spec's general knowledge (D2, log 2); the
FETCH and REGISTER errors rest on the spec's decisions D8, D10 and D11 (log 10). What an error keeps and records is the
spec's decisions D14 and D15 (log 18), and that it is a next state is log 4. -/
def Obligations.LdiLoadsImmediate : Prop :=
  FormThree .ldi 0x82 .ldi ∧
  (∀ r imm s, 7 < r.toNat → exec (.ldi r imm) s = .next (errorState s .boundsError .register r.toNat)) ∧
  (∀ (r imm : Byte) (s : State) (hr : r.toNat < 8),
    exec (.ldi r imm) s = .next { s with x := s.x.set r.toNat imm hr, pc := s.pc + 3 }) ∧
  (∀ (imm : Byte) (s : State), ∃ t, exec (.ldi 7 imm) s = .next t ∧ t.sp = imm)

/-- PRN (41_load_output.md R96): the register's value is appended to the output and nothing else changes but the pc.
That the core never waits for the sink is the spec's decision D20 (log 20). The default byte 0x47 is the spec's general
knowledge (D2, log 2); the FETCH and REGISTER errors rest on decisions D8, D10 and D11 (log 10). What an error keeps and
records is the spec's decisions D14 and D15 (log 18), and that it is a next state is log 4. -/
def Obligations.PrnEmitsRegister : Prop :=
  FormFR .prn 0x47 .prn ∧
  (∀ (r : Byte) (s : State) (hr : r.toNat < 8),
    exec (.prn r) s = .next { s with out := s.out ++ [s.reg ⟨r.toNat, hr⟩], pc := s.pc + 2 })

/-- MUL (40_alu.md R86): the low 8 bits of the product of registers 0 and 1, into register 0, whatever the operand bytes
(the spec's decisions D3 and D4, log 13, 14). The default byte 0xA2 is the spec's general knowledge (D2, log 2); the
FETCH error rests on decisions D8 and D10 (log 10). What an error keeps and records is the spec's decisions D14 and D15
(log 18), and that it is a next state is log 4. -/
def Obligations.MulMultiplies : Prop :=
  FormThree .mul 0xA2 .mul ∧
  (∀ (x1 x2 : Byte) (s : State),
    exec (.mul x1 x2) s =
      .next { s with x := s.x.set 0 (BitVec.ofNat 8 ((s.reg 0).toNat * (s.reg 1).toNat % 256)), pc := s.pc + 3 })

/-- CMP (40_alu.md R87): all three flags are written, from an unsigned comparison of registers 0 and 1 (decision D5, log
15), whatever the operand bytes (D3, log 13). The default byte 0xA7 is the spec's general knowledge (D2, log 2); the
FETCH error rests on decisions D8 and D10 (log 10). What an error keeps and records is the spec's decisions D14 and D15
(log 18), and that it is a next state is log 4. -/
def Obligations.CmpWritesAllFlags : Prop :=
  FormThree .cmp 0xA7 .cmp ∧
  (∀ (x1 x2 : Byte) (s : State),
    exec (.cmp x1 x2) s =
      .next { s with
        flags := { e := decide (s.reg 0 = s.reg 1)
                   l := decide ((s.reg 0).toNat < (s.reg 1).toNat)
                   g := decide ((s.reg 1).toNat < (s.reg 0).toNat) }
        pc := s.pc + 3 })

/-- ADD (40_alu.md R88; decodable when ENABLE_ADD, decision D6): the sum mod 256 into register ra (decision D4, log 14);
ra is checked before rb (D24, log 19). The default byte 0xA0 is the spec's general knowledge (D2, log 2); the FETCH and
REGISTER errors rest on decisions D8, D10 and D11 (log 10). What an error keeps and records is the spec's decisions D14
and D15 (log 18), and that it is a next state is log 4. -/
def Obligations.AddAddsRegisters : Prop :=
  FormThree .add 0xA0 .add ∧
  (∀ ra rb s, 7 < ra.toNat → exec (.add ra rb) s = .next (errorState s .boundsError .register ra.toNat)) ∧
  (∀ ra rb s, ra.toNat < 8 → 7 < rb.toNat →
    exec (.add ra rb) s = .next (errorState s .boundsError .register rb.toNat)) ∧
  (∀ (ra rb : Byte) (s : State) (ha : ra.toNat < 8) (hb : rb.toNat < 8),
    exec (.add ra rb) s =
      .next { s with
        x := s.x.set ra.toNat
          (BitVec.ofNat 8 (((s.reg ⟨ra.toNat, ha⟩).toNat + (s.reg ⟨rb.toNat, hb⟩).toNat) % 256)) ha
        pc := s.pc + 3 })

/-- PUSH (42_stack.md R101), for every register: the byte is stored at SP - 1 and at no other address, SP is one less,
and nothing else changes but the pc; at SP = 0 it raises STACK (decision D8). The R7 clause, the register read after the
decrement, is R104, the spec's own decision D12 (log 17). The default byte 0x45 is the spec's general knowledge (D2, log
2); the FETCH and REGISTER errors rest on decisions D8, D10 and D11 (log 10). What an error keeps and records is the
spec's decisions D14 and D15 (log 18), and that it is a next state is log 4. -/
def Obligations.PushStoresBelowStackPointer : Prop :=
  FormFR .push 0x45 .push ∧
  (∀ (r : Byte) (s : State), r.toNat < 8 → s.sp.toNat = 0 →
    exec (.push r) s = .next (errorState s .boundsError .stack (-1))) ∧
  (∀ (r : Byte) (s : State) (hr : r.toNat < 8), Memory.wf s.mem → s.sp.toNat ≠ 0 →
    ∃ t, exec (.push r) s = .next t ∧
      t.mem.read (s.sp.toNat - 1) =
        (if r.toNat = 7 then BitVec.ofNat 8 (s.sp.toNat - 1) else s.reg ⟨r.toNat, hr⟩) ∧
      (∀ a, a ≠ s.sp.toNat - 1 → t.mem.read a = s.mem.read a) ∧
      { t with mem := s.mem } =
        { s with x := s.x.set 7 (BitVec.ofNat 8 (s.sp.toNat - 1)), pc := s.pc + 2 })

/-- PUSH 7 stores the decremented stack pointer (42_stack.md R104, the spec's decision D12). -/
def Obligations.PushOfStackPointer : Prop :=
  ∀ s : State, Memory.wf s.mem → s.sp.toNat ≠ 0 →
    ∃ t, exec (.push 7) s = .next t ∧ t.sp.toNat = s.sp.toNat - 1 ∧ (t.memRead t.sp).toNat = s.sp.toNat - 1

/-- POP (42_stack.md R102), for every register: read at SP, write the register, then increment x[7] as it is after that
write; STACK where the increment would reach 256 (decision D8); memory never changes. The R7 form, the popped byte plus
one, is R105, the spec's own decision D12 (log 17). The default byte 0x46 is the spec's general knowledge (D2, log 2);
the FETCH and REGISTER errors rest on decisions D8, D10 and D11 (log 10). What an error keeps and records is the spec's
decisions D14 and D15 (log 18), and that it is a next state is log 4. -/
def Obligations.PopLoadsAndIncrements : Prop :=
  FormFR .pop 0x46 .pop ∧
  (∀ (r : Byte) (s : State), r.toNat < 8 → (if r.toNat = 7 then s.memRead s.sp else s.sp).toNat = 255 →
    exec (.pop r) s = .next (errorState s .boundsError .stack 256)) ∧
  (∀ (r : Byte) (s : State) (hr : r.toNat < 8),
    (if r.toNat = 7 then s.memRead s.sp else s.sp).toNat ≠ 255 →
    exec (.pop r) s =
      .next { s with
        x := (s.x.set r.toNat (s.memRead s.sp) hr).set 7
          (BitVec.ofNat 8 ((if r.toNat = 7 then s.memRead s.sp else s.sp).toNat + 1))
        pc := s.pc + 2 })

/-- POP 7 leaves the popped byte plus one, and raises STACK with nothing committed when that byte is 255 (42_stack.md
R105, the spec's decision D12). What an error keeps and records is the spec's decisions D14 and D15 (log 18), and that
it is a next state is log 4. -/
def Obligations.PopOfStackPointer : Prop :=
  (∀ s : State, (s.memRead s.sp).toNat ≤ 254 →
    ∃ t, exec (.pop 7) s = .next t ∧ t.sp.toNat = (s.memRead s.sp).toNat + 1 ∧ t.mem = s.mem) ∧
  (∀ s : State, (s.memRead s.sp).toNat = 255 → exec (.pop 7) s = .next (errorState s .boundsError .stack 256))

/-- The stack pointer never wraps: PUSH moves x[7] exactly one down and POP exactly one up, as integers (POP 7 one up
from the popped byte), or the instruction raises STACK with -1 or 256 and commits nothing (42_stack.md R106, decision
D8, log 10). The POP 7 clause is R105, and PUSH of R7 R104: the spec's own decision D12 (log 17). What an error keeps
and records is the spec's decisions D14 and D15 (log 18), and that it is a next state is log 4. -/
def Obligations.StackPointerNeverWraps : Prop :=
  (∀ (r : Byte) (s t : State), r.toNat < 8 → s.haltReason = .none → exec (.push r) s = .next t →
    (t.sp.toNat + 1 = s.sp.toNat ∧ t.haltReason = .none) ∨
    (s.sp.toNat = 0 ∧ t = errorState s .boundsError .stack (-1))) ∧
  (∀ (r : Byte) (s t : State), r.toNat < 7 → s.haltReason = .none → exec (.pop r) s = .next t →
    (t.sp.toNat = s.sp.toNat + 1 ∧ t.haltReason = .none) ∨
    (s.sp.toNat = 255 ∧ t = errorState s .boundsError .stack 256)) ∧
  (∀ s t : State, s.haltReason = .none → exec (.pop 7) s = .next t →
    (t.sp.toNat = (s.memRead s.sp).toNat + 1 ∧ t.haltReason = .none) ∨
    ((s.memRead s.sp).toNat = 255 ∧ t = errorState s .boundsError .stack 256))

/-- PUSH then POP of the same register is a round trip on all registers, the stack pointer included, for every register
and every SP in 1..255; the stored byte stays (42_stack.md R103, derived there from R101-R105; for R7 decision D12, log 17;
the two run by the model's execAll, log 31). -/
def Obligations.PushPopRoundTrip : Prop :=
  ∀ (r : Byte) (s : State), r.toNat < 8 → s.status = .running → Memory.wf s.mem → s.sp.toNat ≠ 0 →
    ∃ t, execAll [.push r, .pop r] s = .next t ∧ t.x = s.x ∧ t.flags = s.flags ∧ t.out = s.out ∧
      t.status = .running ∧
      t.mem.read (s.sp.toNat - 1) = (if r.toNat = 7 then BitVec.ofNat 8 (s.sp.toNat - 1) else regAt s r)

/-- The stack-depth invariant (10_state.md R23): after N pushes and no pops SP is N lower, and the N cells below the
initial pointer hold the pushed values, the latest lowest; the cell at the initial SP, 255 after reset, is not written.
For a PUSH of R7 the pushed value is the decremented pointer: that clause rests on R104, the spec's decision D12 (log 17).
Consecutive pushes are run by the model's execAll (log 31). -/
def Obligations.StackDepthAfterPushes : Prop :=
  State.reset.sp = 255 ∧
  ∀ (rs : List Byte) (s : State), (∀ r ∈ rs, r.toNat < 8) → s.status = .running → Memory.wf s.mem →
    rs.length ≤ s.sp.toNat →
    ∃ t, execAll (rs.map Instr.push) s = .next t ∧ t.sp.toNat = s.sp.toNat - rs.length ∧
      (∀ k (hk : k < rs.length), t.mem.read (s.sp.toNat - 1 - k) =
        (if rs[k].toNat = 7 then BitVec.ofNat 8 (s.sp.toNat - 1 - k) else regAt s rs[k])) ∧
      (∀ a, a < s.sp.toNat - rs.length ∨ s.sp.toNat ≤ a → t.mem.read a = s.mem.read a)

/-- JMP (43_control.md R110): its encoding and exceptions; the pc becomes the register's value zero-extended, all other
state unchanged; a jump to its own address changes nothing, so it loops forever. The default byte 0x54 is the spec's
general knowledge (D2, log 2); the FETCH and REGISTER errors rest on decisions D8, D10 and D11 (log 10). What an error
keeps and records is the spec's decisions D14 and D15 (log 18), and that it is a next state is log 4. -/
def Obligations.JmpSetsPc : Prop :=
  FormFR .jmp 0x54 .jmp ∧
  (∀ (r : Byte) (s : State) (hr : r.toNat < 8),
    exec (.jmp r) s = .next { s with pc := (s.reg ⟨r.toNat, hr⟩).setWidth 9 }) ∧
  (∀ (r : Byte) (s : State), r.toNat < 8 → Stands (.jmp r) s → (regAt s r).toNat = s.pc.toNat → step s = .next s)

/-- JEQ (43_control.md R111): taken exactly when E, else two bytes on; L and G have no effect; after reset it falls
through (E false at reset is decision D17, log 9). The default byte 0x55 is the spec's general knowledge (D2, log 2);
the FETCH and REGISTER errors rest on decisions D8, D10 and D11 (log 10). What an error keeps and records is the spec's
decisions D14 and D15 (log 18), and that it is a next state is log 4. -/
def Obligations.JeqBranchesOnEqual : Prop :=
  FormFR .jeq 0x55 .jeq ∧
  (∀ (r : Byte) (s : State) (hr : r.toNat < 8),
    exec (.jeq r) s =
      .next { s with pc := if s.flags.e = true then (s.reg ⟨r.toNat, hr⟩).setWidth 9 else s.pc + 2 }) ∧
  State.reset.flags.e = false

/-- JNE (43_control.md R112): taken exactly when not E, else two bytes on; after reset it branches (E false at reset is
decision D17, log 9); after a CMP that sets L or G, E is false (decision D5, log 15). The default byte 0x56 is the
spec's general knowledge (D2, log 2); the FETCH and REGISTER errors rest on decisions D8, D10 and D11 (log 10). What an
error keeps and records is the spec's decisions D14 and D15 (log 18), and that it is a next state is log 4. -/
def Obligations.JneBranchesOnNotEqual : Prop :=
  FormFR .jne 0x56 .jne ∧
  (∀ (r : Byte) (s : State) (hr : r.toNat < 8),
    exec (.jne r) s =
      .next { s with pc := if s.flags.e = true then s.pc + 2 else (s.reg ⟨r.toNat, hr⟩).setWidth 9 }) ∧
  (∀ (x1 x2 : Byte) (s t : State), exec (.cmp x1 x2) s = .next t → t.flags.l = true ∨ t.flags.g = true →
    t.flags.e = false) ∧
  State.reset.flags.e = false

/-- HLT (43_control.md R113): the pc one further on (decision D9, log 11), status Halted, halt_reason HLT, nothing else;
legal at address 255; no later step (written as a fault, log 5), and a later Run has no effect (decision D19, log 30). The
default byte 0x01 is the spec's general knowledge (D2, log 2). -/
def Obligations.HltHalts : Prop :=
  defaultOpcodeMap.byte .hlt = 0x01 ∧
  (∀ s : State, exec .hlt s = .next { s with pc := s.pc + 1, status := .halted, haltReason := .hlt }) ∧
  (∀ s : State, AtOpcode .hlt s → ∃ t, step s = .next t ∧ t.NormalEnd ∧ t.pc.toNat = s.pc.toNat + 1 ∧
    step t = .fault .noStepWhileHalted ∧ t.runInput = t)

/-- 43_control.md R115: no delay slot and no annulment. The step after a taken branch runs the instruction at the target,
and the branch itself changed only the pc; and a branch tests E alone: with other values of L and G it does the same. -/
def Obligations.TakenBranchHasNoDelaySlot : Prop :=
  (∀ (i j : Instr) (r : Byte) (s : State), r.toNat < 8 →
    (i = .jmp r ∨ (i = .jeq r ∧ s.flags.e = true) ∨ (i = .jne r ∧ s.flags.e = false)) →
    Stands i s → Stands j { s with pc := (regAt s r).setWidth 9 } →
    step s = .next { s with pc := (regAt s r).setWidth 9 } ∧
    step { s with pc := (regAt s r).setWidth 9 } = exec j { s with pc := (regAt s r).setWidth 9 }) ∧
  (∀ (i : Instr) (r : Byte) (s t : State) (f : Flags), (i = .jmp r ∨ i = .jeq r ∨ i = .jne r) → f.e = s.flags.e →
    exec i s = .next t → exec i { s with flags := f } = .next { t with flags := f })

/-- A jump to its own address loops forever: the core stays Running after any number of steps, in the same state
(43_control.md R110; 30_encoding.md R77). -/
def Obligations.JumpToItselfDiverges : Prop :=
  ∀ (r : Byte) (s : State), r.toNat < 8 → Stands (.jmp r) s → (regAt s r).toNat = s.pc.toNat →
    s.Diverges ∧ ∀ n, runSteps n s = s

/-- The ALU's three functions, as integers (40_alu.md R80-R83; reduction mod 256 is decision D4, the direction of CMP and
its being unsigned decision D5): exactly one flag of a comparison is true. -/
def Obligations.AluFunctions : Prop :=
  ∀ a b : Byte,
    (∃ v, alu .add a b = .ok (.value v) ∧ v.toNat = (a.toNat + b.toNat) % 256) ∧
    (∃ v, alu .mul a b = .ok (.value v) ∧ v.toNat = (a.toNat * b.toNat) % 256) ∧
    (∃ f, alu .cmp a b = .ok (.flags f) ∧ (f.e = true ↔ a = b) ∧ (f.l = true ↔ a.toNat < b.toNat) ∧
      (f.g = true ↔ b.toNat < a.toNat) ∧
      ((f.e = true ∧ f.l = false ∧ f.g = false) ∨ (f.e = false ∧ f.l = true ∧ f.g = false) ∨
        (f.e = false ∧ f.l = false ∧ f.g = true)))

/-! ### Frames, over all instructions -/

/-- Every register outside the "writes" column of 10_state.md R21 keeps its value, on completion and on an error (SP is x[7]:
decision D7, log 16; an error keeps all: D14, log 18; ADD: D6; MUL and CMP's bytes: D3). -/
def Obligations.RegistersNotWrittenAreKept : Prop :=
  ∀ (i : Instr) (s t : State) (k : RegIdx), exec i s = .next t → ¬writesReg i k → t.reg k = s.reg k

/-- An instruction depends on no register outside the "reads" column of 10_state.md R21: with another value there it
does the same to everything else (SP is x[7]: decision D7, log 16; POP 7's order: D12; an error keeps all: D14, log 18). -/
def Obligations.RegistersNotReadDoNotMatter : Prop :=
  ∀ (i : Instr) (s t : State) (k : RegIdx) (v : Byte), ¬readsReg i k → exec i s = .next t →
    ∃ t', exec i (s.setReg k v) = .next t' ∧ { t' with x := t.x } = t ∧
      (∀ j, j ≠ k → t'.reg j = t.reg j) ∧ (t'.reg k = v ∨ writesReg i k ∧ t'.reg k = t.reg k)

/-- 40_alu.md R85: only CMP changes a flag; ADD and MUL leave E, L and G unchanged. -/
def Obligations.OnlyCmpChangesFlags : Prop :=
  (∀ (i : Instr) (s t : State), exec i s = .next t → t.flags ≠ s.flags → ∃ x1 x2, i = .cmp x1 x2) ∧
  (∀ (x1 x2 : Byte) (s t : State), exec (.mul x1 x2) s = .next t → t.flags = s.flags) ∧
  (∀ (ra rb : Byte) (s t : State), exec (.add ra rb) s = .next t → t.flags = s.flags)

/-- Nothing reads L or G: two cores that differ only there take the same step, differing after it only there (10_state.md
R25; 43_control.md R115). -/
def Obligations.LessAndGreaterAreNeverRead : Prop :=
  ∀ (s t : State) (l g : Bool), step s = .next t →
    ∃ t', step { s with flags := { s.flags with l := l, g := g } } = .next t' ∧
      { t' with flags := t.flags } = t ∧ t'.flags.e = t.flags.e

/-- Every byte of memory keeps its value but the one PUSH stores at SP - 1; no other instruction touches memory
(20_memory.md R40, R41). A PUSH that raises stores nothing (decisions D8, D14, log 10, 18). -/
def Obligations.OnlyPushWritesMemory : Prop :=
  (∀ (i : Instr) (s t : State), exec i s = .next t → (∀ r, i ≠ .push r) → ∀ a, t.mem.read a = s.mem.read a) ∧
  (∀ (r : Byte) (s t : State) (sp1 : Byte), exec (.push r) s = .next t → movedSp s.sp (-1) = .ok sp1 →
    ∀ a, a ≠ sp1.toNat → t.mem.read a = s.mem.read a) ∧
  (∀ (r : Byte) (s t : State) (e : CoreError), exec (.push r) s = .next t → movedSp s.sp (-1) = .error e →
    ∀ a, t.mem.read a = s.mem.read a)

/-- Only PRN appends to the output history, one value, the register's; nothing removes from it (10_state.md R30; decision
D20). -/
def Obligations.OnlyPrnEmits : Prop :=
  ∀ (i : Instr) (s t : State), exec i s = .next t →
    outputSince s t = (match i with | .prn r => if r.toNat < 8 then [regAt s r] else [] | _ => []) ∧
    t.out = s.out ++ outputSince s t

/-- The dispatcher's fields: an instruction leaves `status`, `halt_reason` and `error_info` alone, or is HLT, or raises
BoundsError with a REGISTER or STACK record at its own pc (30_encoding.md R74, R75; 43_control.md R113; decisions D8,
D11, log 10; that the register check stands at the head of exec is log 24). What an error keeps and records is the
spec's decisions D14 and D15 (log 18), and that it is a next state is log 4. -/
def Obligations.StatusFrame : Prop :=
  ∀ (i : Instr) (s t : State), exec i s = .next t →
    (t.status = s.status ∧ t.haltReason = s.haltReason ∧ t.errorInfo = s.errorInfo) ∨
    (i = .hlt ∧ t.status = .halted ∧ t.haltReason = .hlt ∧ t.errorInfo = s.errorInfo) ∨
    (∃ f ∈ i.registerFields, 7 < f.toNat ∧ t = errorState s .boundsError .register f.toNat) ∨
    (∃ r, i = .push r ∧ t = errorState s .boundsError .stack (-1)) ∨
    (∃ r, i = .pop r ∧ t = errorState s .boundsError .stack 256)

/-! ### Memory -/

/-- 20_memory.md R49: after any sequence of writes, a read of an address returns the most recent write to it, and
before any write what was there; reset memory reads 0 everywhere (R35). -/
def Obligations.ReadReturnsLatestWrite : Prop :=
  (∀ (ws : List (Nat × Byte)) (m : Memory) (a : Nat), Memory.wf m →
    (ws.foldl (fun m w => m.write w.1 w.2) m).read a =
      ((ws.reverse.find? (fun w => w.1 == a)).map Prod.snd).getD (m.read a)) ∧
  (∀ a, State.reset.mem.read a = 0)

/-- Memories of canonical form that read alike at every address of 0..255 are the same data (10_state.md R33; the form is
the model's own, log 33). -/
def Obligations.MemoriesThatReadAlikeAreEqual : Prop :=
  ∀ m m' : Memory, Memory.wf m → Memory.wf m' → (∀ a, a < 256 → m.read a = m'.read a) → m = m'

/-- Instruction fetch is coherent with stores: a PUSH that writes a byte of the next instruction changes what the next
step fetches there, opcode or operand, for every register (20_memory.md R52, decision D16; 42_stack.md R104, R107). -/
def Obligations.FetchSeesPushedByte : Prop :=
  ∀ (r : Byte) (s t : State) (k : Nat), r.toNat < 8 → Memory.wf s.mem → s.sp.toNat ≠ 0 →
    exec (.push r) s = .next t → t.pc.toNat + k = s.sp.toNat - 1 → k < 3 →
    t.fetchBytes[k]? = some (if r.toNat = 7 then BitVec.ofNat 8 (s.sp.toNat - 1) else regAt s r)

/-! ### Reset and the host's ports -/

/-- Reset puts every piece of state at its value (10_state.md R35, 70_reset_and_hazards.md R140; the zeros of R0-R6, the pc
and the flags are decision D17, log 9; `halt_reason` and `error_info` D15, log 18; `out` D20, log 20). The last clause is
not R35's: that the state carries the configuration is the model's choice (log 1), its default opcode map is the spec's
general knowledge (D2, log 2), and ENABLE_ADD false is the spec's default (decision D6, log 3). -/
def Obligations.ResetValues : Prop :=
  (∀ a, State.reset.mem.read a = 0) ∧ (∀ i : RegIdx, State.reset.reg i = if i = 7 then 255 else 0) ∧
  State.reset.pc = 0 ∧ State.reset.flags = { e := false, l := false, g := false } ∧ State.reset.status = .halted ∧
  State.reset.haltReason = .none ∧ State.reset.errorInfo = none ∧ State.reset.out = [] ∧
  State.reset.cfg = { opcodeMap := defaultOpcodeMap, enableAdd := false }

/-- The load port writes one byte, and only before the core has been started (00_scope.md R5, decision D18; the answer
none for a closed port is log 7). -/
def Obligations.LoadPortOnlyBeforeRun : Prop :=
  (∀ (s : State) (addr : Nat) (v : Byte), (s.loadWrite addr v).isSome = true ↔ (s.NotStarted ∧ addr < 256)) ∧
  (∀ (s t : State) (addr : Nat) (v : Byte), Memory.wf s.mem → s.loadWrite addr v = some t →
    t.mem.read addr = v ∧ (∀ a, a ≠ addr → t.mem.read a = s.mem.read a) ∧ { t with mem := s.mem } = s)

/-- Run is accepted once, in the not-yet-started state, and has no effect in any other (00_scope.md R6, decision D19). -/
def Obligations.RunStartsOnce : Prop :=
  (∀ s : State, s.NotStarted → s.runInput = { s with status := .running }) ∧
  (∀ s : State, ¬s.NotStarted → s.runInput = s) ∧
  (∀ s : State, s.runInput.runInput = s.runInput)

/-- Boot: reset, load byte i of the image to address i, Run from pc 0; bytes not covered stay 0; an image over 256 bytes
never starts (70_reset_and_hazards.md R142, R143, R144, decision D18). -/
def Obligations.BootLoadsImageAndRuns : Prop :=
  (∀ (c : Config) (image : List Byte), image.length ≤ 256 →
    (∀ a, a < 256 → (boot c image).mem.read a = image.getD a 0) ∧ Memory.wf (boot c image).mem ∧
    { boot c image with mem := State.reset.mem } = { State.reset with cfg := c, status := .running }) ∧
  (∀ (c : Config) (image : List Byte), 256 < image.length → boot c image = { State.reset with cfg := c })

/-- A program that runs off its image into a zero byte raises UnknownInstruction with value 0 there, under every
admitted map (70_reset_and_hazards.md R143, derived there; the maps avoid 0x00: decision D2). What an error keeps and
records is the spec's decisions D14 and D15 (log 18), and that it is a next state is log 4. -/
def Obligations.ZeroByteIsUnknown : Prop :=
  ∀ s : State, s.Inv → s.status = .running → s.pc.toNat ≤ 255 → s.mem.read s.pc.toNat = 0 →
    step s = .next (errorState s .unknownInstruction .opcode 0)

/-- All state is readable through the status port and the debug observation together (60_exceptions.md R136, decision D30;
00_scope.md R8, R9): two cores built alike that show the same there are the same, and the observation gives the pc, each
memory byte, the registers, the flags and the output as they are. After a halt what is shown stays, whatever the host does.
(That the flags and the output are on the observation's side is log 34; the canonical form of memory is log 33.) -/
def Obligations.AllStateIsReadable : Prop :=
  (∀ s t : State, Memory.wf s.mem → Memory.wf t.mem → s.cfg = t.cfg → s.statusPort = t.statusPort →
    s.observe = t.observe → s = t) ∧
  (∀ s : State, s.observe.pc = s.pc ∧ s.observe.regs = s.x ∧ s.observe.flags = s.flags ∧ s.observe.out = s.out ∧
    ∀ a, a < 256 → s.observe.bytes[a]? = some (s.mem.read a)) ∧
  (∀ (s t : State) (inp : HostInput), s.status = .halted → s.haltReason ≠ .none → s.accept inp = some t →
    t.statusPort = s.statusPort ∧ t.observe = s.observe)

/-- The status port's numeric codes (10_state.md R28, decision D15, log 18; 00_scope.md R8), which tell the reasons apart. -/
def Obligations.StatusPortCodes : Prop :=
  HaltReason.none.code = 0 ∧ HaltReason.hlt.code = 1 ∧ HaltReason.unknownInstruction.code = 2 ∧
  HaltReason.boundsError.code = 3 ∧ HaltReason.unsupportedAluOperation.code = 4 ∧
  (∀ r r' : HaltReason, r.code = r'.code → r = r') ∧
  (∀ s : State, s.statusPort = { status := s.status, haltCode := s.haltReason.code, errorInfo := s.errorInfo })
end

