-- ==== Sys2Proof/Laws/Memory.lean ====
section
/-! SUPPORT. The laws of memory: a read after a write, and that every memory operation keeps the canonical form. -/

namespace Sys2Proof.Machine

open Sys2Proof

/-- Every listed address lies above `a`. -/
abbrev Memory.Above (a : Nat) (m : Memory) : Prop := ∀ c ∈ m, a < c.1

theorem Memory.read_of_above {m : Memory} {a : Nat} (h : Memory.Above a m) : m.read a = unlistedByte := by
  induction m with
  | nil => rfl
  | cons c rest ih =>
    have hc : a < c.1 := h c (by simp)
    simp [Memory.read, Nat.ne_of_lt hc, ih fun d hd => h d (by simp [hd])]

theorem Memory.read_cell_same {m : Memory} {a : Nat} (v : Byte) (h : Memory.Above a m) :
    (Memory.cell a v m).read a = v := by
  unfold Memory.cell
  split
  · next hv => rw [hv, read_of_above h]
  · simp [Memory.read]

theorem Memory.read_cell_ne {m : Memory} {a b : Nat} (v : Byte) (h : b ≠ a) :
    (Memory.cell a v m).read b = m.read b := by
  unfold Memory.cell
  split
  · rfl
  · simp [Memory.read, h]

/-- A byte written is the byte read at that address, in a memory of canonical form (R41, R49). -/
theorem Memory.read_write_same {m : Memory} (hm : m.Pairwise fun c d => c.1 < d.1) (a : Nat) (v : Byte) :
    (m.write a v).read a = v := by
  induction m with
  | nil => exact read_cell_same v (by simp)
  | cons c rest ih =>
    obtain ⟨b, w⟩ := c
    have hrest := List.pairwise_cons.mp hm
    simp only [Memory.write]
    split
    · next hab =>
      exact read_cell_same v fun d hd => by
        rcases List.mem_cons.mp hd with rfl | hd
        · exact hab
        · exact Nat.lt_trans hab (hrest.1 d hd)
    · split
      · next _ heq => subst heq; exact read_cell_same v hrest.1
      · next _ hne => simp only [Memory.read, if_neg hne]; exact ih hrest.2

/-- A write changes no other address (R41: "No side effects beyond the stored byte"). -/
theorem Memory.read_write_ne (m : Memory) {a b : Nat} (v : Byte) (h : b ≠ a) :
    (m.write a v).read b = m.read b := by
  induction m with
  | nil => exact read_cell_ne v h
  | cons c rest ih =>
    obtain ⟨d, w⟩ := c
    simp only [Memory.write]
    split
    · exact read_cell_ne v h
    · split
      · next _ heq => subst heq; simp [read_cell_ne v h, Memory.read, h]
      · simp only [Memory.read, ih]

theorem Memory.mem_cell {m : Memory} {a : Nat} {v : Byte} {c : Host.Cell} (h : c ∈ Memory.cell a v m) :
    c = (a, v) ∧ v ≠ unlistedByte ∨ c ∈ m := by
  unfold Memory.cell at h
  split at h
  · exact .inr h
  · next hv => exact (List.mem_cons.mp h).imp_left fun e => ⟨e, hv⟩

/-- The cells after a write: the one written, unless it holds the unlisted byte, and cells there were before. -/
theorem Memory.mem_write {m : Memory} {a : Nat} {v : Byte} {c : Host.Cell} (h : c ∈ m.write a v) :
    c = (a, v) ∧ v ≠ unlistedByte ∨ c ∈ m := by
  induction m with
  | nil => exact mem_cell h
  | cons d rest ih =>
    obtain ⟨b, w⟩ := d
    simp only [Memory.write] at h
    split at h
    · exact mem_cell h
    · split at h
      · exact (mem_cell h).imp_right fun h => List.mem_cons_of_mem _ h
      · rcases List.mem_cons.mp h with rfl | h
        · exact .inr (by simp)
        · exact (ih h).imp_right fun h => List.mem_cons_of_mem _ h

theorem Memory.pairwise_cell {m : Memory} {a : Nat} (v : Byte) (hm : m.Pairwise fun c d => c.1 < d.1)
    (ha : Memory.Above a m) : (Memory.cell a v m).Pairwise fun c d => c.1 < d.1 := by
  unfold Memory.cell
  split
  · exact hm
  · exact List.pairwise_cons.mpr ⟨ha, hm⟩

theorem Memory.pairwise_write {m : Memory} (hm : m.Pairwise fun c d => c.1 < d.1) (a : Nat) (v : Byte) :
    (m.write a v).Pairwise fun c d => c.1 < d.1 := by
  induction m with
  | nil => exact pairwise_cell v hm (by simp)
  | cons c rest ih =>
    obtain ⟨b, w⟩ := c
    have hrest := List.pairwise_cons.mp hm
    simp only [Memory.write]
    split
    · next hab =>
      exact pairwise_cell v hm fun d hd => by
        rcases List.mem_cons.mp hd with rfl | hd
        · exact hab
        · exact Nat.lt_trans hab (hrest.1 d hd)
    · split
      · next _ heq => subst heq; exact pairwise_cell v hrest.2 hrest.1
      · next hnlt hne =>
        refine List.pairwise_cons.mpr ⟨fun d hd => ?_, ih hrest.2⟩
        rcases mem_write hd with ⟨rfl, -⟩ | hd
        · simp only; omega
        · exact hrest.1 d hd

/-- A write inside the address space keeps the canonical form. -/
theorem Memory.wf_write {m : Memory} (hm : m.wf) {a : Nat} (ha : a < memSize) (v : Byte) : (m.write a v).wf :=
  ⟨pairwise_write hm.1 a v, fun c hc => by
    rcases mem_write hc with ⟨rfl, hv⟩ | hc
    · exact ⟨ha, hv⟩
    · exact hm.2 c hc⟩

theorem Memory.wf_writeList {m : Memory} (hm : m.wf) (a : Nat) (vs : List Byte) : (m.writeList a vs).wf := by
  induction vs generalizing m a with
  | nil => exact hm
  | cons v vs ih =>
    refine ih ?_ (a + 1)
    split
    · next ha => exact wf_write hm ha v
    · exact hm

/-- The one store of an instruction, at an 8-bit address, keeps the canonical form. -/
theorem State.memWrite_wf {s : State} (hs : s.mem.wf) (a v : Byte) : (s.memWrite a v).mem.wf :=
  Memory.wf_write hs a.isLt v

theorem State.withPlacedWord_wf {s : State} (hs : s.mem.wf) (nbits w : Nat) : (s.placeWord nbits w).mem.wf :=
  Memory.wf_writeList hs _ _

theorem State.loadWrite_wf {s t : State} (hs : s.mem.wf) {addr : Nat} {v : Byte} (h : s.loadWrite addr v = some t) :
    t.mem.wf := by
  unfold State.loadWrite at h
  split at h
  · cases h; exact memWrite_wf hs _ _
  · cases h

theorem State.reset_mem_wf : State.reset.mem.wf := by decide

/-- Reading back a stored byte of the state. -/
theorem State.memRead_memWrite_same {s : State} (hs : s.mem.wf) (a v : Byte) : (s.memWrite a v).memRead a = v :=
  Memory.read_write_same hs.1 _ _

theorem State.memRead_memWrite_ne (s : State) {a b : Byte} (v : Byte) (h : b ≠ a) :
    (s.memWrite a v).memRead b = s.memRead b :=
  Memory.read_write_ne _ _ fun e => h (BitVec.eq_of_toNat_eq e)

end Sys2Proof.Machine
end

