-- ==== Sys2Proof/Laws/State.lean ====
section
/-! SUPPORT. One lemma per field per update of State, so that no proof unfolds a record update. -/

namespace Sys2Proof.Machine

open Sys2Proof

variable (s : State)

/-! ### setReg -/

@[simp] theorem State.setReg_cfg (i : RegIdx) (v : Byte) : (s.setReg i v).cfg = s.cfg := rfl
@[simp] theorem State.setReg_mem (i : RegIdx) (v : Byte) : (s.setReg i v).mem = s.mem := rfl
@[simp] theorem State.setReg_x (i : RegIdx) (v : Byte) : (s.setReg i v).x = s.x.set i v := rfl
@[simp] theorem State.setReg_pc (i : RegIdx) (v : Byte) : (s.setReg i v).pc = s.pc := rfl
@[simp] theorem State.setReg_flags (i : RegIdx) (v : Byte) : (s.setReg i v).flags = s.flags := rfl
@[simp] theorem State.setReg_status (i : RegIdx) (v : Byte) : (s.setReg i v).status = s.status := rfl
@[simp] theorem State.setReg_haltReason (i : RegIdx) (v : Byte) : (s.setReg i v).haltReason = s.haltReason := rfl
@[simp] theorem State.setReg_errorInfo (i : RegIdx) (v : Byte) : (s.setReg i v).errorInfo = s.errorInfo := rfl
@[simp] theorem State.setReg_out (i : RegIdx) (v : Byte) : (s.setReg i v).out = s.out := rfl

/-! ### memWrite -/

@[simp] theorem State.memWrite_cfg (a v : Byte) : (s.memWrite a v).cfg = s.cfg := rfl
@[simp] theorem State.memWrite_mem (a v : Byte) : (s.memWrite a v).mem = s.mem.write a.toNat v := rfl
@[simp] theorem State.memWrite_x (a v : Byte) : (s.memWrite a v).x = s.x := rfl
@[simp] theorem State.memWrite_pc (a v : Byte) : (s.memWrite a v).pc = s.pc := rfl
@[simp] theorem State.memWrite_flags (a v : Byte) : (s.memWrite a v).flags = s.flags := rfl
@[simp] theorem State.memWrite_status (a v : Byte) : (s.memWrite a v).status = s.status := rfl
@[simp] theorem State.memWrite_haltReason (a v : Byte) : (s.memWrite a v).haltReason = s.haltReason := rfl
@[simp] theorem State.memWrite_errorInfo (a v : Byte) : (s.memWrite a v).errorInfo = s.errorInfo := rfl
@[simp] theorem State.memWrite_out (a v : Byte) : (s.memWrite a v).out = s.out := rfl

/-! ### setFlags -/

@[simp] theorem State.setFlags_cfg (f : Flags) : (s.setFlags f).cfg = s.cfg := rfl
@[simp] theorem State.setFlags_mem (f : Flags) : (s.setFlags f).mem = s.mem := rfl
@[simp] theorem State.setFlags_x (f : Flags) : (s.setFlags f).x = s.x := rfl
@[simp] theorem State.setFlags_pc (f : Flags) : (s.setFlags f).pc = s.pc := rfl
@[simp] theorem State.setFlags_flags (f : Flags) : (s.setFlags f).flags = f := rfl
@[simp] theorem State.setFlags_status (f : Flags) : (s.setFlags f).status = s.status := rfl
@[simp] theorem State.setFlags_haltReason (f : Flags) : (s.setFlags f).haltReason = s.haltReason := rfl
@[simp] theorem State.setFlags_errorInfo (f : Flags) : (s.setFlags f).errorInfo = s.errorInfo := rfl
@[simp] theorem State.setFlags_out (f : Flags) : (s.setFlags f).out = s.out := rfl

/-! ### setPc -/

@[simp] theorem State.setPc_cfg (p : PcWord) : (s.setPc p).cfg = s.cfg := rfl
@[simp] theorem State.setPc_mem (p : PcWord) : (s.setPc p).mem = s.mem := rfl
@[simp] theorem State.setPc_x (p : PcWord) : (s.setPc p).x = s.x := rfl
@[simp] theorem State.setPc_pc (p : PcWord) : (s.setPc p).pc = p := rfl
@[simp] theorem State.setPc_flags (p : PcWord) : (s.setPc p).flags = s.flags := rfl
@[simp] theorem State.setPc_status (p : PcWord) : (s.setPc p).status = s.status := rfl
@[simp] theorem State.setPc_haltReason (p : PcWord) : (s.setPc p).haltReason = s.haltReason := rfl
@[simp] theorem State.setPc_errorInfo (p : PcWord) : (s.setPc p).errorInfo = s.errorInfo := rfl
@[simp] theorem State.setPc_out (p : PcWord) : (s.setPc p).out = s.out := rfl

/-! ### advance -/

@[simp] theorem State.advance_cfg (n : Nat) : (s.advance n).cfg = s.cfg := rfl
@[simp] theorem State.advance_mem (n : Nat) : (s.advance n).mem = s.mem := rfl
@[simp] theorem State.advance_x (n : Nat) : (s.advance n).x = s.x := rfl
@[simp] theorem State.advance_pc (n : Nat) : (s.advance n).pc = s.pc + BitVec.ofNat 9 n := rfl
@[simp] theorem State.advance_flags (n : Nat) : (s.advance n).flags = s.flags := rfl
@[simp] theorem State.advance_status (n : Nat) : (s.advance n).status = s.status := rfl
@[simp] theorem State.advance_haltReason (n : Nat) : (s.advance n).haltReason = s.haltReason := rfl
@[simp] theorem State.advance_errorInfo (n : Nat) : (s.advance n).errorInfo = s.errorInfo := rfl
@[simp] theorem State.advance_out (n : Nat) : (s.advance n).out = s.out := rfl

/-! ### emit -/

@[simp] theorem State.emit_cfg (v : Byte) : (s.emit v).cfg = s.cfg := rfl
@[simp] theorem State.emit_mem (v : Byte) : (s.emit v).mem = s.mem := rfl
@[simp] theorem State.emit_x (v : Byte) : (s.emit v).x = s.x := rfl
@[simp] theorem State.emit_pc (v : Byte) : (s.emit v).pc = s.pc := rfl
@[simp] theorem State.emit_flags (v : Byte) : (s.emit v).flags = s.flags := rfl
@[simp] theorem State.emit_status (v : Byte) : (s.emit v).status = s.status := rfl
@[simp] theorem State.emit_haltReason (v : Byte) : (s.emit v).haltReason = s.haltReason := rfl
@[simp] theorem State.emit_errorInfo (v : Byte) : (s.emit v).errorInfo = s.errorInfo := rfl
@[simp] theorem State.emit_out (v : Byte) : (s.emit v).out = s.out ++ [v] := rfl

/-! ### halt -/

@[simp] theorem State.halt_cfg : (s.halt).cfg = s.cfg := rfl
@[simp] theorem State.halt_mem : (s.halt).mem = s.mem := rfl
@[simp] theorem State.halt_x : (s.halt).x = s.x := rfl
@[simp] theorem State.halt_pc : (s.halt).pc = s.pc := rfl
@[simp] theorem State.halt_flags : (s.halt).flags = s.flags := rfl
@[simp] theorem State.halt_status : (s.halt).status = .halted := rfl
@[simp] theorem State.halt_haltReason : (s.halt).haltReason = .hlt := rfl
@[simp] theorem State.halt_errorInfo : (s.halt).errorInfo = s.errorInfo := rfl
@[simp] theorem State.halt_out : (s.halt).out = s.out := rfl

/-! ### raise -/

@[simp] theorem State.raise_cfg (e : CoreError) : (s.raise e).cfg = s.cfg := rfl
@[simp] theorem State.raise_mem (e : CoreError) : (s.raise e).mem = s.mem := rfl
@[simp] theorem State.raise_x (e : CoreError) : (s.raise e).x = s.x := rfl
@[simp] theorem State.raise_pc (e : CoreError) : (s.raise e).pc = s.pc := rfl
@[simp] theorem State.raise_flags (e : CoreError) : (s.raise e).flags = s.flags := rfl
@[simp] theorem State.raise_status (e : CoreError) : (s.raise e).status = .halted := rfl
@[simp] theorem State.raise_haltReason (e : CoreError) : (s.raise e).haltReason = e.reason := rfl
@[simp] theorem State.raise_errorInfo (e : CoreError) : (s.raise e).errorInfo = some { pc := s.pc, kind := e.kind, value := e.value } := rfl
@[simp] theorem State.raise_out (e : CoreError) : (s.raise e).out = s.out := rfl

/-! ### Reading a register or a memory byte after an update of another field -/

@[simp] theorem State.setReg_memRead (i : RegIdx) (v a : Byte) : (s.setReg i v).memRead a = s.memRead a := rfl
@[simp] theorem State.memWrite_reg (a v : Byte) (i : RegIdx) : (s.memWrite a v).reg i = s.reg i := rfl
@[simp] theorem State.memWrite_sp (a v : Byte) : (s.memWrite a v).sp = s.sp := rfl
@[simp] theorem State.setFlags_reg (f : Flags) (i : RegIdx) : (s.setFlags f).reg i = s.reg i := rfl
@[simp] theorem State.setFlags_sp (f : Flags) : (s.setFlags f).sp = s.sp := rfl
@[simp] theorem State.setFlags_memRead (f : Flags) (a : Byte) : (s.setFlags f).memRead a = s.memRead a := rfl
@[simp] theorem State.setPc_reg (p : PcWord) (i : RegIdx) : (s.setPc p).reg i = s.reg i := rfl
@[simp] theorem State.setPc_sp (p : PcWord) : (s.setPc p).sp = s.sp := rfl
@[simp] theorem State.setPc_memRead (p : PcWord) (a : Byte) : (s.setPc p).memRead a = s.memRead a := rfl
@[simp] theorem State.advance_reg (n : Nat) (i : RegIdx) : (s.advance n).reg i = s.reg i := rfl
@[simp] theorem State.advance_sp (n : Nat) : (s.advance n).sp = s.sp := rfl
@[simp] theorem State.advance_memRead (n : Nat) (a : Byte) : (s.advance n).memRead a = s.memRead a := rfl
@[simp] theorem State.emit_reg (v : Byte) (i : RegIdx) : (s.emit v).reg i = s.reg i := rfl
@[simp] theorem State.emit_sp (v : Byte) : (s.emit v).sp = s.sp := rfl
@[simp] theorem State.emit_memRead (v : Byte) (a : Byte) : (s.emit v).memRead a = s.memRead a := rfl
@[simp] theorem State.halt_reg (i : RegIdx) : (s.halt).reg i = s.reg i := rfl
@[simp] theorem State.halt_sp : (s.halt).sp = s.sp := rfl
@[simp] theorem State.halt_memRead (a : Byte) : (s.halt).memRead a = s.memRead a := rfl
@[simp] theorem State.raise_reg (e : CoreError) (i : RegIdx) : (s.raise e).reg i = s.reg i := rfl
@[simp] theorem State.raise_sp (e : CoreError) : (s.raise e).sp = s.sp := rfl
@[simp] theorem State.raise_memRead (e : CoreError) (a : Byte) : (s.raise e).memRead a = s.memRead a := rfl

/-! ### Reading a register after writing one -/

@[simp] theorem State.reg_setReg_same (i : RegIdx) (v : Byte) : (s.setReg i v).reg i = v := by
  simp [State.reg, State.setReg]

theorem State.reg_setReg_ne (i j : RegIdx) (v : Byte) (h : i ≠ j) : (s.setReg i v).reg j = s.reg j := by
  have h' : i.val ≠ j.val := fun e => h (Fin.ext e)
  simp [State.reg, State.setReg, h']

/-- A write to a register is seen by a read of that register and of no other. -/
theorem State.reg_setReg (i j : RegIdx) (v : Byte) : (s.setReg i v).reg j = if i = j then v else s.reg j := by
  split
  · next h => subst h; simp
  · next h => exact s.reg_setReg_ne i j v h

/-- A write to `x[7]` moves the stack pointer (R22). -/
@[simp] theorem State.sp_setReg_spReg (v : Byte) : (s.setReg spReg v).sp = v := s.reg_setReg_same spReg v

end Sys2Proof.Machine
end

