-- ==== Sys2Proof/Laws/Ops.lean ====
section
/-! SUPPORT. One lemma per shared operation, saying once all it can do. -/

namespace Sys2Proof.Machine

open Sys2Proof

/-! ### Operands -/

theorem checkRegister_ok {f : Byte} (h : f.toNat < 8) : checkRegister f = .ok ⟨f.toNat, h⟩ := by
  simp [checkRegister, h]

theorem checkRegister_error {f : Byte} (h : ¬f.toNat < 8) : checkRegister f = .error (.register f) := by
  simp [checkRegister, h]

theorem withRegister_ok {f : Byte} (h : f.toNat < 8) (s : State) (k : RegIdx → Except CoreError State) :
    withRegister f s k = commit s (k ⟨f.toNat, h⟩) := by
  simp [withRegister, checkRegister_ok h, Except.bind]

theorem withRegister_error {f : Byte} (h : ¬f.toNat < 8) (s : State) (k : RegIdx → Except CoreError State) :
    withRegister f s k = .next (s.raise (.register f)) := by
  simp [withRegister, checkRegister_error h, Except.bind, commit]

theorem withRegisters_ok {fa fb : Byte} (ha : fa.toNat < 8) (hb : fb.toNat < 8) (s : State)
    (k : RegIdx → RegIdx → Except CoreError State) :
    withRegisters fa fb s k = commit s (k ⟨fa.toNat, ha⟩ ⟨fb.toNat, hb⟩) := by
  simp [withRegisters, checkRegister_ok ha, checkRegister_ok hb, Except.bind]

theorem withRegisters_error_first {fa : Byte} (ha : ¬fa.toNat < 8) (fb : Byte) (s : State)
    (k : RegIdx → RegIdx → Except CoreError State) :
    withRegisters fa fb s k = .next (s.raise (.register fa)) := by
  simp [withRegisters, checkRegister_error ha, Except.bind, commit]

theorem withRegisters_error_second {fa fb : Byte} (ha : fa.toNat < 8) (hb : ¬fb.toNat < 8) (s : State)
    (k : RegIdx → RegIdx → Except CoreError State) :
    withRegisters fa fb s k = .next (s.raise (.register fb)) := by
  simp [withRegisters, checkRegister_ok ha, checkRegister_error hb, Except.bind, commit]

/-! ### Committing -/

@[simp] theorem commit_ok (s t : State) : commit s (.ok t) = .next t := rfl

@[simp] theorem commit_error (s : State) (e : CoreError) : commit s (.error e) = .next (s.raise e) := rfl

/-- An instruction's outcome is always a next state: its scratch copy, or the raised state. -/
theorem commit_cases (s : State) (r : Except CoreError State) :
    (∃ t, r = .ok t ∧ commit s r = .next t) ∨ (∃ e, r = .error e ∧ commit s r = .next (s.raise e)) := by
  cases r with
  | ok t => exact .inl ⟨t, rfl, rfl⟩
  | error e => exact .inr ⟨e, rfl, rfl⟩

/-! ### The stack pointer -/

theorem movedSp_down {sp : Byte} (h : sp.toNat ≠ 0) : movedSp sp (-1) = .ok (BitVec.ofNat 8 (sp.toNat - 1)) := by
  have hlt := sp.isLt
  have e : (sp.toNat : Int) + -1 = ((sp.toNat - 1 : Nat) : Int) := by omega
  rw [movedSp, if_neg (by omega), e, BitVec.ofInt_natCast]

theorem movedSp_down_zero {sp : Byte} (h : sp.toNat = 0) : movedSp sp (-1) = .error (.stack (-1)) := by
  simp [movedSp, h]

theorem movedSp_up {sp : Byte} (h : sp.toNat ≠ 255) : movedSp sp 1 = .ok (BitVec.ofNat 8 (sp.toNat + 1)) := by
  have hlt := sp.isLt
  have e : (sp.toNat : Int) + 1 = ((sp.toNat + 1 : Nat) : Int) := by omega
  rw [movedSp, if_neg (by omega), e, BitVec.ofInt_natCast]

theorem movedSp_up_top {sp : Byte} (h : sp.toNat = 255) : movedSp sp 1 = .error (.stack 256) := by
  simp [movedSp, h]

/-! ### The pc -/

/-- Where the instruction fits in memory, advancing does not wrap (R73, R76). -/
theorem State.advance_pc_toNat (s : State) {n : Nat} (h : s.pc.toNat + n ≤ memSize) :
    (s.advance n).pc.toNat = s.pc.toNat + n := by
  simp only [memSize] at h
  simp only [State.advance_pc, BitVec.toNat_add, BitVec.toNat_ofNat]
  omega

/-! ### The step -/

theorem step_halted {s : State} (h : s.status = .halted) : step s = .fault .noStepWhileHalted := by
  simp [step, h]

theorem step_fetched {s : State} (h : s.status = .running) {i : Instr} (hi : s.fetchInstr = .ok i) :
    step s = exec i s := by
  simp [step, h, hi]

theorem step_fetch_error {s : State} (h : s.status = .running) {e : CoreError} (he : s.fetchInstr = .error e) :
    step s = .next (s.raise e) := by
  simp [step, h, he]

end Sys2Proof.Machine
end

