-- ==== Sys2Proof/Laws/PerInstr.lean ====
section
/-! SUPPORT. Statements about every instruction as syntax, one lemma per constructor. -/

/-- An instruction's encoding is as long as its opcode says, one to three bytes (30_encoding.md R55, R57, R64). -/
def Sys2Proof.Laws.EncodedLength.Statement (i : Sys2Proof.Instr) : Prop :=
  ∀ c : Sys2Proof.Config, (Sys2Proof.encode c i).length = i.length ∧ 1 ≤ i.length ∧ i.length ≤ Sys2Proof.maxInstrBytes

namespace Sys2Proof.Laws.EncodedLength

open Sys2Proof

theorem length_bounds (h : Handler) : 1 ≤ h.length ∧ h.length ≤ maxInstrBytes := by
  cases h <;> decide

theorem hlt : Statement .hlt := fun _ => ⟨rfl, length_bounds _⟩
theorem ldi (r imm : Byte) : Statement (.ldi r imm) := fun _ => ⟨rfl, length_bounds _⟩
theorem prn (r : Byte) : Statement (.prn r) := fun _ => ⟨rfl, length_bounds _⟩
theorem mul (x1 x2 : Byte) : Statement (.mul x1 x2) := fun _ => ⟨rfl, length_bounds _⟩
theorem cmp (x1 x2 : Byte) : Statement (.cmp x1 x2) := fun _ => ⟨rfl, length_bounds _⟩
theorem push (r : Byte) : Statement (.push r) := fun _ => ⟨rfl, length_bounds _⟩
theorem pop (r : Byte) : Statement (.pop r) := fun _ => ⟨rfl, length_bounds _⟩
theorem jmp (r : Byte) : Statement (.jmp r) := fun _ => ⟨rfl, length_bounds _⟩
theorem jeq (r : Byte) : Statement (.jeq r) := fun _ => ⟨rfl, length_bounds _⟩
theorem jne (r : Byte) : Statement (.jne r) := fun _ => ⟨rfl, length_bounds _⟩
theorem add (ra rb : Byte) : Statement (.add ra rb) := fun _ => ⟨rfl, length_bounds _⟩

end Sys2Proof.Laws.EncodedLength
end

