-- ==== Sys2Proof/Tests/Slice0.lean ====
section
/-! SUPPORT. The model's own tests. Expected results are the spec's: the encodings of 30_encoding.md R56-R58, the examples
W* and vectors V-* of 95_test_vectors.md, named at each test. Then one witness per statement that has hypotheses. -/

namespace Sys2Proof.Tests

open Sys2Proof Sys2Proof.Machine Sys2Proof.Claim

/-! ### Helpers -/

/-- Reset, with bytes at `pc`, started there. -/
def ready (pc : Nat) (bytes : List Byte) : State :=
  { State.reset with mem := Memory.writeList [] pc bytes, pc := BitVec.ofNat 9 pc, status := .running }

/-- The same core built with ENABLE_ADD. -/
def withAdd (s : State) : State := { s with cfg := tableConfig }

/-- A value read off a next state. -/
def after {α : Type} (f : State → α) : Host.Outcome State Fault Refusal → Option α
  | .next t => some (f t)
  | .fault _ => none
  | .refused _ => none

/-- What the dispatcher's fields and the pc say. -/
def verdict (s : State) : Status × HaltReason × Option ErrorInfo × Nat := (s.status, s.haltReason, s.errorInfo, s.pc.toNat)

/-- The verdict of a BoundsError. -/
def bounds (pc : Nat) (kind : ErrorKind) (v : Int) : Option (Status × HaltReason × Option ErrorInfo × Nat) :=
  some (.halted, .boundsError, some ⟨BitVec.ofNat 9 pc, kind, .num v⟩, pc)

/-! ### Well-formedness smoke: an ill-formed term for each check -/

theorem test_wf_ldi_register_8 : ¬(Instr.ldi 8 0).WellFormed := by decide
theorem test_wf_prn_register_255 : ¬(Instr.prn 255).WellFormed := by decide
theorem test_wf_push_register_8 : ¬(Instr.push 8).WellFormed := by decide
theorem test_wf_pop_register_8 : ¬(Instr.pop 8).WellFormed := by decide
theorem test_wf_jmp_register_8 : ¬(Instr.jmp 8).WellFormed := by decide
theorem test_wf_jeq_register_9 : ¬(Instr.jeq 9).WellFormed := by decide
theorem test_wf_jne_register_8 : ¬(Instr.jne 8).WellFormed := by decide
theorem test_wf_add_first_register : ¬(Instr.add 8 0).WellFormed := by decide
theorem test_wf_add_second_register : ¬(Instr.add 0 8).WellFormed := by decide
theorem test_wf_immediate_and_ignored_bytes_unchecked :
    (Instr.ldi 7 255).WellFormed ∧ (Instr.mul 255 8).WellFormed ∧ (Instr.cmp 8 255).WellFormed := by decide
theorem test_wf_memory_unsorted : ¬Memory.wf [(1, 5), (0, 5)] := by decide
theorem test_wf_memory_lists_unlisted_byte : ¬Memory.wf [(1, 0)] := by decide
theorem test_wf_memory_outside_space : ¬Memory.wf [(256, 1)] := by decide
theorem test_map_with_repeated_byte :
    ¬({ defaultConfig with opcodeMap := { defaultOpcodeMap with pop := 0x45 } } : Config).Admissible := by decide
theorem test_map_with_zero_byte :
    ¬({ defaultConfig with opcodeMap := { defaultOpcodeMap with jne := 0 } } : Config).Admissible := by decide
theorem test_default_maps_admissible : defaultConfig.Admissible ∧ tableConfig.Admissible := by decide

/-! ### Decoding: words written out from R56 and R58, first byte lowest -/

theorem test_decode_hlt : decodeTableWord 8 0b00000001 = some .hlt := by decide
theorem test_decode_ldi : decodeTableWord 24 0b00001000_00000000_10000010 = some (.ldi 0 8) := by decide
theorem test_decode_prn : decodeTableWord 16 0b00000110_01000111 = some (.prn 6) := by decide
theorem test_decode_mul : decodeTableWord 24 0b00000001_00000000_10100010 = some (.mul 0 1) := by decide
theorem test_decode_cmp : decodeTableWord 24 0b00000001_00000000_10100111 = some (.cmp 0 1) := by decide
theorem test_decode_push : decodeTableWord 16 0b00000111_01000101 = some (.push 7) := by decide
theorem test_decode_pop : decodeTableWord 16 0b00000011_01000110 = some (.pop 3) := by decide
theorem test_decode_jmp : decodeTableWord 16 0b00000010_01010100 = some (.jmp 2) := by decide
theorem test_decode_jeq : decodeTableWord 16 0b00000010_01010101 = some (.jeq 2) := by decide
theorem test_decode_jne : decodeTableWord 16 0b00000010_01010110 = some (.jne 2) := by decide
theorem test_decode_add : decodeTableWord 24 0b00000011_00000010_10100000 = some (.add 2 3) := by decide
theorem test_decode_reserved_zero : decodeTableWord 8 0 = none := by decide
theorem test_word_above_nbits_is_zero : decodeTableWord 8 0b11111111_11111111_10000010 = some (.ldi 0 0) := by decide

/-! ### Dispatcher vectors -/

/-- V-D1, W7. -/
theorem test_reserved_zero_unknown : after verdict (step (ready 0 [0x00])) =
    some (.halted, .unknownInstruction, some ⟨0, .opcode, .num 0⟩, 0) := by decide
/-- V-D2: the default configuration does not decode ADD. -/
theorem test_add_disabled_unknown : after verdict (step (ready 0 [0xA0, 0, 1])) =
    some (.halted, .unknownInstruction, some ⟨0, .opcode, .num 160⟩, 0) := by decide
/-- V-D4. -/
theorem test_fetch_at_256 : after verdict (step (ready 256 [])) = bounds 256 .fetch 256 := by decide
/-- V-D6. -/
theorem test_mul_past_end : after verdict (step (ready 254 [0xA2, 0])) = bounds 254 .fetch 256 := by decide
/-- V-D12: decode comes before the extent check. -/
theorem test_unknown_before_extent : after verdict (step (ready 254 [0x00])) =
    some (.halted, .unknownInstruction, some ⟨254, .opcode, .num 0⟩, 254) := by decide
/-- R70: no step before Run. -/
theorem test_reset_has_no_step : step State.reset = .fault .noStepWhileHalted := rfl
/-- A table word is fetched and run as the first instruction after reset; ADD too (log 3). -/
theorem test_fetch_word_ldi : after (fun t => t.reg 2) (step (State.reset.withFetchWord 24 0x070282)) = some 7 := by decide
theorem test_fetch_word_add :
    after (fun t => (t.reg 7, t.pc.toNat)) (step (State.reset.withFetchWord 24 0x0700A0)) = some (255, 3) ∧
    after (fun t => t.reg 0) (step (State.reset.withFetchWord 24 0x0700A0)) = some 255 := by decide

/-! ### One step per instruction -/

/-- V-D5. -/
theorem test_hlt_at_255 : after verdict (step (ready 255 [0x01])) = some (.halted, .hlt, none, 256) := by decide
/-- V-L2. -/
theorem test_ldi_stack_pointer : after (fun t => (t.sp, t.pc.toNat)) (step (ready 0 [0x82, 7, 100])) = some (100, 3) := by decide
/-- V-D9. -/
theorem test_ldi_register_8 : after verdict (step (ready 0 [0x82, 8, 5])) = bounds 0 .register 8 := by decide
/-- V-L4. -/
theorem test_prn : after (fun t => (t.out, t.pc.toNat)) (step ((ready 0 [0x47, 0]).setReg 0 72)) = some ([72], 2) := by decide
/-- V-D8. -/
theorem test_prn_past_end : after verdict (step (ready 255 [0x47])) = bounds 255 .fetch 256 := by decide
/-- V-A3. -/
theorem test_mul_wraps : after (fun t => t.reg 0) (step (((ready 0 [0xA2, 0, 1]).setReg 0 255).setReg 1 255)) = some 1 := by decide
/-- V-D11: odd operand bytes are ignored. -/
theorem test_mul_ignores_bytes : after (fun t => t.reg 0) (step (((ready 0 [0xA2, 3, 5]).setReg 0 2).setReg 1 4)) = some 8 := by decide
/-- V-A5: stale flags are cleared. -/
theorem test_cmp_clears_stale : after (fun t => t.flags)
    (step ((((ready 0 [0xA7, 0, 1]).setReg 0 3).setReg 1 5).setFlags ⟨true, false, true⟩)) = some ⟨false, true, false⟩ := by decide
/-- V-A8: unsigned. -/
theorem test_cmp_unsigned : after (fun t => t.flags)
    (step (((ready 0 [0xA7, 0, 1]).setReg 0 128).setReg 1 127)) = some ⟨false, false, true⟩ := by decide
/-- V-S6. -/
theorem test_push_7 : after (fun t => (t.sp, t.memRead 254, t.memRead 255)) (step (ready 0 [0x45, 7])) =
    some (254, 254, 0) := by decide
/-- V-S4. -/
theorem test_push_at_zero : after verdict (step (((ready 0 [0x45, 0]).setReg 7 0).setReg 0 9)) = bounds 0 .stack (-1) := by decide
/-- V-S2. -/
theorem test_pop : after (fun t => (t.reg 3, t.sp, t.memRead 254, t.pc.toNat))
    (step (((ready 0 [0x46, 3]).setReg 7 254).memWrite 254 42)) = some (42, 255, 42, 2) := by decide
/-- V-S9. -/
theorem test_pop_7_of_255 : after verdict (step (((ready 0 [0x46, 7]).setReg 7 200).memWrite 200 255)) =
    bounds 0 .stack 256 := by decide
/-- V-C1. -/
theorem test_jmp : after (fun t => t.pc.toNat) (step ((ready 24 [0x54, 2]).setReg 2 9)) = some 9 := by decide
/-- V-C10. -/
theorem test_jmp_past_end : after verdict (step (ready 255 [0x54])) = bounds 255 .fetch 256 := by decide
/-- V-C2. -/
theorem test_jeq_taken : after (fun t => t.pc.toNat)
    (step (((ready 12 [0x55, 2]).setReg 2 16).setFlags ⟨true, false, false⟩)) = some 16 := by decide
/-- V-D10: checked even when not taken. -/
theorem test_jeq_register_9 : after verdict (step (ready 0 [0x55, 9])) = bounds 0 .register 9 := by decide
/-- V-C4. -/
theorem test_jne_taken : after (fun t => t.pc.toNat) (step ((ready 24 [0x56, 2]).setReg 2 9)) = some 9 := by decide
/-- V-C5. -/
theorem test_jne_falls_through : after (fun t => t.pc.toNat)
    (step (((ready 24 [0x56, 2]).setReg 2 9).setFlags ⟨true, false, false⟩)) = some 26 := by decide
/-- V-A9. -/
theorem test_add_wraps : after (fun t => (t.reg 0, t.reg 1, t.pc.toNat))
    (step (withAdd (((ready 0 [0xA0, 0, 1]).setReg 0 200).setReg 1 100))) = some (44, 100, 3) := by decide
/-- V-A12. -/
theorem test_add_register_8 : after verdict (step (withAdd (ready 0 [0xA0, 0, 8]))) = bounds 0 .register 8 := by decide

/-! ### Ports and text forms -/

/-- R66: "`LDI 0,8` is the three lines", with a comment and a blank line. -/
theorem test_image_text : parseImage ("10000010 # LDI 0,8\n00000000\n\n# x\n00001000".toList) = some [0x82, 0, 8] := by decide
/-- D27: a token that is not 1 to 8 binary digits is malformed. -/
theorem test_image_text_malformed : parseImage ['1', '2'] = none := by decide
/-- P1, the §8 program (R65, R67), assembled to the bytes 95_test_vectors.md lists. -/
theorem test_assemble_program : assemble defaultConfig ("LDI 0,8 ; LDI 1,9 ; MUL ; PRN 0 ; HLT".toList) =
    some [0x82, 0x00, 0x08, 0x82, 0x01, 0x09, 0xA2, 0x00, 0x01, 0x47, 0x00, 0x01] := by decide
/-- R65: `Rn`, hexadecimal and binary spellings; ADD is no mnemonic unless enabled. -/
theorem test_assemble_spellings :
    assemble tableConfig ("CMP R0,R1\nLDI R7, 0x64;LDI 2,0b101; ADD 2, R3".toList) =
      some [0xA7, 0, 1, 0x82, 7, 100, 0x82, 2, 5, 0xA0, 2, 3] ∧
    assemble defaultConfig ("ADD 2,3".toList) = none := by decide
/-- R142: the booted core runs the image's first instruction. -/
theorem test_boot : after (fun t => (t.reg 0, t.pc.toNat)) (step (boot defaultConfig [0x82, 0, 8])) = some (8, 3) := by decide
/-- V-E2: Run after HLT has no effect. -/
theorem test_run_after_hlt : after (fun t => decide (t.runInput = t)) (step (ready 0 [0x01])) = some true := by decide
/-- R8: the status port after a stack fault. -/
theorem test_status_port : after State.statusPort (step (ready 11 [0x46, 3])) =
    some ⟨.halted, 3, some ⟨11, .stack, .num 256⟩⟩ := by decide
/-- R136: after a halt the observation still reads the flags, the output and any memory byte. -/
theorem test_observe_after_halt : after (fun t => (t.observe.flags, t.observe.out, t.observe.bytes[200]?))
    (step (((((ready 0 [0x01]).memWrite 200 7).emit 72).setFlags ⟨false, true, false⟩))) =
    some (⟨false, true, false⟩, [72], some 7) := by decide
/-- R9, R135: the dump near the end of memory. -/
theorem test_trace : (ready 254 [0x47, 2]).trace.bytes = [0x47, 2] := by decide

/-! ### Witnesses: concrete states and operands that meet the hypotheses of each statement, at the edges of their ranges

Named witness_<the statement>. -/

theorem atOpcode_ready (pc : Nat) (h : Handler) (b : Byte) (hb : defaultOpcodeMap.byte h = b)
    (hh : h ∈ defaultConfig.handlers) (hp : (BitVec.ofNat 9 pc).toNat ≤ 255)
    (hr : (ready pc [b]).mem.read (BitVec.ofNat 9 pc).toNat = b) : AtOpcode h (ready pc [b]) :=
  ⟨rfl, (by decide : defaultConfig.Admissible), hh, hp, hr.trans hb.symm⟩

/-- A running core that has never halted meets the invariant. -/
theorem inv_of_ready (s : State) (hc : s.cfg.Admissible) (hm : Memory.wf s.mem) (hp : s.pc.toNat ≤ 256)
    (hf : s.flags = ⟨false, false, false⟩) (hr : s.haltReason = .none) (he : s.errorInfo = none) : s.Inv where
  admissible := hc
  memWf := hm
  pcRange := hp
  flagsExclusive := by simp [hf]
  runningReason := fun _ => hr
  noAluError := by simp [hr]
  infoIffError := by simp [hr, he, HaltReason.IsError]
  infoFits := by simp [he]

theorem witness_DecodeInvertsEncode :
    (defaultConfig.Admissible ∧ defaultConfig.Decodes (.ldi 255 0)) ∧ (tableConfig.Admissible ∧ tableConfig.Decodes (.add 7 255)) := by
  decide
theorem witness_DecodedBytesAreTheEncoding : decode defaultConfig [0xA2, 3, 5, 9] = .ok (.mul 3 5, [9]) := rfl
theorem witness_LengthDependsOnOpcodeAlone :
    defaultConfig.branchTable 0x82 = some .ldi ∧ decode defaultConfig [0x82, 1, 2] = .ok (.ldi 1 2, []) ∧
    tableLength .ldi ≤ [0x82, 1, (2 : Byte)].length ∧ defaultConfig.branchTable 0 = none := ⟨by decide, rfl, by decide, by decide⟩
theorem witness_UnassignedOpcodesAreIllegal :
    defaultConfig.Admissible ∧ tableConfig.Admissible ∧ (0xA0 : Byte) ∉ defaultConfig.opcodes := by decide
theorem witness_OpcodeThenOperandBytes :
    decode defaultConfig [0xA2, 3, 5, 9] = .ok (.mul 3 5, [9]) ∧ decode defaultConfig [0xA2, 7, 7] = .ok (.mul 7 7, []) ∧
    (2 < 3 ∧ (ready 253 []).pc.toNat + 2 ≤ 255) := ⟨rfl, rfl, by decide⟩
theorem witness_RunningStepsAndHaltedDoesNot : (ready 256 []).status = .running ∧ State.reset.status = .halted := by decide
theorem witness_FetchPastMemoryRaises :
    (ready 256 []).status = .running ∧ 255 < (ready 256 []).pc.toNat ∧ (ready 256 []).pc.toNat ≤ 256 := by decide
theorem witness_OpcodeLookup :
    ((ready 255 []).status = .running ∧ (ready 255 []).pc.toNat ≤ 255 ∧
      (ready 255 []).cfg.branchTable ((ready 255 []).mem.read (ready 255 []).pc.toNat) = none) ∧
    ((ready 255 [1]).cfg.branchTable ((ready 255 [1]).mem.read (ready 255 [1]).pc.toNat) = some .hlt ∧
      (ready 255 [1]).pc.toNat + tableLength .hlt ≤ 256) := by decide
theorem witness_ExtentCheckRaises :
    (AtOpcode .mul (ready 254 [0xA2]) ∧ 256 < (ready 254 [0xA2]).pc.toNat + tableLength .mul) ∧
    (AtOpcode .prn (ready 255 [0x47]) ∧ 256 < (ready 255 [0x47]).pc.toNat + tableLength .prn) :=
  ⟨⟨atOpcode_ready _ _ _ rfl (by decide) (by decide) (by decide), by decide⟩,
    ⟨atOpcode_ready _ _ _ rfl (by decide) (by decide) (by decide), by decide⟩⟩
theorem witness_RegisterFieldsAreChecked :
    (Instr.ldi 8 5).registerFields.find? (fun f => decide (7 < f.toNat)) = some 8 ∧
    (Instr.add 9 8).registerFields.find? (fun f => decide (7 < f.toNat)) = some 9 ∧
    (Instr.add 7 8).registerFields.find? (fun f => decide (7 < f.toNat)) = some 8 ∧
    ((ready 0 []).status = .running ∧
      after (fun t => decide (t = errorState (ready 0 []) .boundsError .register 8)) (exec (.prn 8) (ready 0 [])) = some true) ∧
    ((ready 0 []).status = .running ∧ (7 : Byte).toNat < 8) := by decide
theorem witness_StepRunsDecodedInstruction :
    (ready 255 [1]).status = .running ∧ decode (ready 255 [1]).cfg (ready 255 [1]).fetchBytes = .ok (.hlt, []) := ⟨rfl, rfl⟩
theorem witness_StepRunsEncodedInstruction : Stands .hlt (ready 255 [1]) ∧ Stands (.mul 3 5) (ready 253 [0xA2, 3, 5]) :=
  ⟨⟨rfl, by decide, by decide, by decide, by decide⟩, ⟨rfl, by decide, by decide, by decide, by decide⟩⟩
theorem witness_PcAdvance :
    (Instr.mul 0 1).WellFormed ∧ (ready 253 []).haltReason = .none ∧
    (ready 253 []).pc.toNat + tableLength (Instr.mul 0 1).handler ≤ 256 ∧
    after (fun t => decide (t.haltReason.IsError)) (exec (.mul 0 1) (ready 253 [])) = some false := by decide
theorem witness_StepKeepsInvariant :
    (ready 253 [0xA2, 0, 1]).Inv ∧ (after (fun t => t.pc.toNat) (step (ready 253 [0xA2, 0, 1]))) = some 256 :=
  ⟨inv_of_ready _ (by decide) (by decide) (by decide) rfl rfl rfl, by decide⟩
theorem witness_HostInputsKeepInvariant :
    ({ State.reset with pc := 3 } : State).Inv ∧
    (({ State.reset with pc := 3 } : State).accept (.loadWrite 255 1)).isSome = true ∧
    (({ State.reset with pc := 3 } : State).accept .run).isSome = true :=
  ⟨inv_of_ready _ (by decide) (by decide) (by decide) rfl rfl rfl, by decide, by decide⟩
theorem witness_BranchTableNeverChanges :
    (after (fun t => t.pc.toNat) (step (ready 0 [0x45, 0]))) = some 2 ∧ (State.reset.accept (.loadWrite 0 0x82)).isSome = true := by
  decide
theorem witness_ErrorsArePrecise :
    (ready 0 []).haltReason = .none ∧ after (fun t => decide (t.haltReason.IsError)) (step (ready 0 [])) = some true := by decide
theorem witness_HaltReasonSetOnce :
    ((ready 0 [1]).Inv ∧ after (fun t => t.haltReason) (step (ready 0 [1])) = some .hlt) ∧
    (State.reset.accept .run).isSome = true :=
  ⟨⟨inv_of_ready _ (by decide) (by decide) (by decide) rfl rfl rfl, by decide⟩, by decide⟩
theorem witness_AluErrorUnreachable :
    (ready 0 [0xA7]).haltReason ≠ .unsupportedAluOperation ∧
    after (fun t => t.haltReason) (step (ready 0 [0xA7])) = some .none := by decide
theorem witness_HaltIsTerminal :
    (State.reset.halt).status = .halted ∧ (State.reset.halt).haltReason ≠ .none ∧
    (State.reset.halt.accept .run).isSome = true := by decide
theorem witness_LdiLoadsImmediate :
    AtOpcode .ldi (ready 254 [0x82]) ∧ 254 ≤ (ready 254 [0x82]).pc.toNat ∧ 7 < (8 : Byte).toNat ∧ (7 : Byte).toNat < 8 ∧
    defaultConfig.Admissible ∧ Handler.ldi ∈ defaultConfig.handlers :=
  ⟨atOpcode_ready _ _ _ rfl (by decide) (by decide) (by decide), by decide⟩
theorem witness_PrnEmitsRegister :
    AtOpcode .prn (ready 255 [0x47]) ∧ (ready 255 [0x47]).pc.toNat = 255 ∧ 7 < (8 : Byte).toNat ∧ (7 : Byte).toNat < 8 ∧
    defaultConfig.Admissible ∧ Handler.prn ∈ defaultConfig.handlers :=
  ⟨atOpcode_ready _ _ _ rfl (by decide) (by decide) (by decide), by decide⟩
theorem witness_MulMultiplies :
    AtOpcode .mul (ready 255 [0xA2]) ∧ 254 ≤ (ready 255 [0xA2]).pc.toNat ∧ Handler.mul ∈ defaultConfig.handlers :=
  ⟨atOpcode_ready _ _ _ rfl (by decide) (by decide) (by decide), by decide⟩
theorem witness_CmpWritesAllFlags :
    AtOpcode .cmp (ready 254 [0xA7]) ∧ 254 ≤ (ready 254 [0xA7]).pc.toNat ∧ Handler.cmp ∈ defaultConfig.handlers :=
  ⟨atOpcode_ready _ _ _ rfl (by decide) (by decide) (by decide), by decide⟩
theorem witness_AddAddsRegisters :
    AtOpcode .add (withAdd (ready 254 [0xA0])) ∧ 254 ≤ (withAdd (ready 254 [0xA0])).pc.toNat ∧
    (7 < (8 : Byte).toNat ∧ (7 : Byte).toNat < 8) ∧ tableConfig.Admissible ∧ Handler.add ∈ tableConfig.handlers :=
  ⟨⟨rfl, by decide, by decide, by decide, by decide⟩, by decide⟩
theorem witness_PushStoresBelowStackPointer :
    (AtOpcode .push (ready 255 [0x45]) ∧ (ready 255 [0x45]).pc.toNat = 255) ∧
    ((7 : Byte).toNat < 8 ∧ ((ready 0 []).setReg 7 0).sp.toNat = 0) ∧
    ((7 : Byte).toNat < 8 ∧ Memory.wf ((ready 0 []).setReg 7 1).mem ∧ ((ready 0 []).setReg 7 1).sp.toNat ≠ 0) :=
  ⟨⟨atOpcode_ready _ _ _ rfl (by decide) (by decide) (by decide), by decide⟩, by decide, by decide⟩
theorem witness_PushOfStackPointer : Memory.wf (ready 0 []).mem ∧ (ready 0 []).sp.toNat ≠ 0 := by decide
theorem witness_PopLoadsAndIncrements :
    (AtOpcode .pop (ready 255 [0x46]) ∧ (ready 255 [0x46]).pc.toNat = 255) ∧
    ((0 : Byte).toNat < 8 ∧
      (if (0 : Byte).toNat = 7 then (ready 0 []).memRead (ready 0 []).sp else (ready 0 []).sp).toNat = 255) ∧
    ((7 : Byte).toNat < 8 ∧
      (if (7 : Byte).toNat = 7 then (ready 0 []).memRead (ready 0 []).sp else (ready 0 []).sp).toNat ≠ 255) :=
  ⟨⟨atOpcode_ready _ _ _ rfl (by decide) (by decide) (by decide), by decide⟩, by decide, by decide⟩
theorem witness_PopOfStackPointer :
    ((ready 0 []).memWrite 255 254).memRead ((ready 0 []).memWrite 255 254).sp = 254 ∧
    (((ready 0 []).memWrite 255 255).memRead ((ready 0 []).memWrite 255 255).sp).toNat = 255 := by decide
theorem witness_StackPointerNeverWraps :
    (ready 0 []).haltReason = .none ∧
    after (fun t => (t.sp.toNat, t.haltReason)) (exec (.push 7) (ready 0 [])) = some (254, .none) ∧
    after (fun t => (t.sp.toNat, t.haltReason)) (exec (.push 0) ((ready 0 []).setReg 7 0)) = some (0, .boundsError) ∧
    after (fun t => (t.sp.toNat, t.haltReason)) (exec (.pop 6) ((ready 0 []).setReg 7 254)) = some (255, .none) ∧
    after (fun t => (t.sp.toNat, t.haltReason)) (exec (.pop 0) (ready 0 [])) = some (255, .boundsError) ∧
    after (fun t => (t.sp.toNat, t.haltReason)) (exec (.pop 7) (ready 0 [])) = some (1, .none) := by decide
theorem witness_PushPopRoundTrip :
    (7 : Byte).toNat < 8 ∧ ((ready 0 []).setReg 7 1).status = .running ∧ Memory.wf ((ready 0 []).setReg 7 1).mem ∧
    ((ready 0 []).setReg 7 1).sp.toNat ≠ 0 := by decide
theorem witness_StackDepthAfterPushes :
    (∀ r ∈ [(0 : Byte), 7], r.toNat < 8) ∧ ((ready 0 []).setReg 7 2).status = .running ∧
    Memory.wf ((ready 0 []).setReg 7 2).mem ∧ [(0 : Byte), 7].length ≤ ((ready 0 []).setReg 7 2).sp.toNat := by decide
theorem witness_JmpSetsPc :
    (AtOpcode .jmp (ready 255 [0x54]) ∧ (ready 255 [0x54]).pc.toNat = 255 ∧ 7 < (8 : Byte).toNat ∧ (7 : Byte).toNat < 8) ∧
    (Stands (.jmp 7) ((ready 254 [0x54, 7]).setReg 7 254) ∧
      (regAt ((ready 254 [0x54, 7]).setReg 7 254) 7).toNat = ((ready 254 [0x54, 7]).setReg 7 254).pc.toNat) :=
  ⟨⟨atOpcode_ready _ _ _ rfl (by decide) (by decide) (by decide), by decide⟩,
    ⟨rfl, by decide, by decide, by decide, by decide⟩, by decide⟩
theorem witness_JeqBranchesOnEqual :
    AtOpcode .jeq (ready 255 [0x55]) ∧ (ready 255 [0x55]).pc.toNat = 255 ∧ 7 < (9 : Byte).toNat ∧ (7 : Byte).toNat < 8 :=
  ⟨atOpcode_ready _ _ _ rfl (by decide) (by decide) (by decide), by decide⟩
theorem witness_JneBranchesOnNotEqual :
    AtOpcode .jne (ready 255 [0x56]) ∧ (ready 255 [0x56]).pc.toNat = 255 ∧ 7 < (8 : Byte).toNat ∧ (7 : Byte).toNat < 8 ∧
    after (fun t => t.flags.l) (exec (.cmp 0 1) ((ready 0 []).setReg 1 1)) = some true :=
  ⟨atOpcode_ready _ _ _ rfl (by decide) (by decide) (by decide), by decide⟩
theorem witness_HltHalts : AtOpcode .hlt (ready 255 [1]) := atOpcode_ready _ _ _ rfl (by decide) (by decide) (by decide)
theorem witness_TakenBranchHasNoDelaySlot :
    (Stands (.jmp 0) ((ready 0 [0x54, 0]).setReg 0 0) ∧
      Stands (.jmp 0) { (ready 0 [0x54, 0]).setReg 0 0 with pc := (regAt ((ready 0 [0x54, 0]).setReg 0 0) 0).setWidth 9 }) ∧
    (Stands (.jne 7) (ready 254 [0x56, 7]) ∧ (ready 254 [0x56, 7]).flags.e = false) ∧
    after (fun t => t.pc.toNat) (exec (.jeq 0) (ready 0 [])) = some 2 :=
  ⟨⟨⟨rfl, by decide, by decide, by decide, by decide⟩, ⟨rfl, by decide, by decide, by decide, by decide⟩⟩,
    ⟨⟨rfl, by decide, by decide, by decide, by decide⟩, rfl⟩, by decide⟩
theorem witness_JumpToItselfDiverges :
    (0 : Byte).toNat < 8 ∧ Stands (.jmp 0) (ready 0 [0x54, 0]) ∧
    (regAt (ready 0 [0x54, 0]) 0).toNat = (ready 0 [0x54, 0]).pc.toNat :=
  ⟨by decide, ⟨rfl, by decide, by decide, by decide, by decide⟩, by decide⟩
theorem witness_RegistersNotWrittenAreKept :
    after (fun t => t.reg 6) (exec (.pop 5) ((ready 0 []).setReg 7 0)) = some 0 ∧ ¬writesReg (.pop 5) 6 :=
  ⟨by decide, by simp [writesReg]⟩
theorem witness_RegistersNotReadDoNotMatter :
    ¬readsReg (.push 5) 6 ∧ after (fun t => t.reg 6) (exec (.push 5) (ready 0 [])) = some 0 :=
  ⟨by simp [readsReg], by decide⟩
theorem witness_OnlyCmpChangesFlags :
    after (fun t => decide (t.flags ≠ (ready 0 []).flags)) (exec (.cmp 0 1) (ready 0 [])) = some true ∧
    after (fun t => t.flags.e) (exec (.mul 0 1) (ready 0 [])) = some false ∧
    after (fun t => t.flags.e) (exec (.add 0 1) (ready 0 [])) = some false := by decide
theorem witness_LessAndGreaterAreNeverRead : after (fun t => t.pc.toNat) (step (ready 0 [0x55, 0])) = some 2 := by decide
theorem witness_OnlyPushWritesMemory :
    (after (fun t => t.pc.toNat) (exec (.pop 0) ((ready 0 []).setReg 7 0)) = some 2 ∧ ∀ r, Instr.pop 0 ≠ .push r) ∧
    (after (fun t => t.pc.toNat) (exec (.push 0) ((ready 0 []).setReg 7 1)) = some 2 ∧
      movedSp ((ready 0 []).setReg 7 1).sp (-1) = .ok 0 ∧ (255 : Nat) ≠ (0 : Byte).toNat) ∧
    (after (fun t => t.pc.toNat) (exec (.push 0) ((ready 0 []).setReg 7 0)) = some 0 ∧
      movedSp ((ready 0 []).setReg 7 0).sp (-1) = .error (.stack (-1))) :=
  ⟨⟨by decide, by simp⟩, ⟨by decide, rfl, by decide⟩, by decide, rfl⟩
theorem witness_OnlyPrnEmits : after (fun t => t.out) (exec (.prn 7) (ready 0 [])) = some [255] := by decide
theorem witness_StatusFrame : after (fun t => t.status) (exec (.prn 8) (ready 0 [])) = some .halted := by decide
theorem witness_ReadReturnsLatestWrite : Memory.wf [(0, 1), (255, 2)] := by decide
theorem witness_MemoriesThatReadAlikeAreEqual :
    Memory.wf [(0, 1), (255, 2)] ∧ Memory.wf (((Memory.write [] 255 2).write 0 1).write 7 0) ∧
    ∀ a, a < 256 → Memory.read [(0, 1), (255, 2)] a = (((Memory.write [] 255 2).write 0 1).write 7 0).read a :=
  ⟨by decide, by decide, fun _ _ => rfl⟩
theorem witness_FetchSeesPushedByte :
    (0 : Byte).toNat < 8 ∧ Memory.wf ((ready 0 [0x45, 0]).setReg 7 5).mem ∧ ((ready 0 [0x45, 0]).setReg 7 5).sp.toNat ≠ 0 ∧
    after (fun t => t.pc.toNat + 2) (exec (.push 0) ((ready 0 [0x45, 0]).setReg 7 5)) =
      some (((ready 0 [0x45, 0]).setReg 7 5).sp.toNat - 1) := by decide
theorem witness_LoadPortOnlyBeforeRun :
    Memory.wf State.reset.mem ∧ (State.reset.loadWrite 255 9).isSome = true ∧ (State.reset.loadWrite 256 9).isSome = false := by
  decide
theorem witness_RunStartsOnce : State.reset.NotStarted ∧ ¬(ready 0 []).NotStarted := by decide
theorem witness_BootLoadsImageAndRuns :
    (List.replicate 256 (1 : Byte)).length ≤ 256 ∧ 256 < (List.replicate 257 (1 : Byte)).length := by
  rw [List.length_replicate, List.length_replicate]; decide
theorem witness_AllStateIsReadable :
    (Memory.wf (ready 0 [1]).mem ∧ (ready 0 [1]).statusPort = (ready 0 [1]).statusPort) ∧
    (State.reset.halt.status = .halted ∧ State.reset.halt.haltReason ≠ .none ∧ (State.reset.halt.accept .run).isSome = true) := by
  decide
theorem witness_ZeroByteIsUnknown :
    (ready 255 []).Inv ∧ (ready 255 []).status = .running ∧ (ready 255 []).pc.toNat ≤ 255 ∧
    (ready 255 []).mem.read (ready 255 []).pc.toNat = 0 :=
  ⟨inv_of_ready _ (by decide) (by decide) (by decide) rfl rfl rfl, by decide⟩

end Sys2Proof.Tests
end

section
/-! PROOFS. Reset (10_state.md R35), one PUSH (42_stack.md R101, R104), and the stack after any number of them
(10_state.md R23). -/

namespace Sys2Proof.Machine

open Sys2Proof Sys2Proof.Claim

/-! ### Reset -/

@[simp] theorem State.reset_reg (i : RegIdx) : State.reset.reg i = if i = 7 then 255 else 0 := by
  revert i; decide

@[simp] theorem State.reset_sp : State.reset.sp = 255 := State.reset_reg 7

/-- Settles O50: clause by clause, as `State.reset` is written. -/
theorem resetValues : Obligations.ResetValues :=
  ⟨fun _ => rfl, State.reset_reg, rfl, rfl, rfl, rfl, rfl, rfl, rfl⟩

/-! ### One PUSH that completes -/

section
variable (s : State)

/-- The stack pointer one lower; meant for a pointer that is not 0. -/
def State.spBelow : Byte := BitVec.ofNat 8 (s.sp.toNat - 1)

/-- The state a completed PUSH of register `i` leaves (R101): `exec_push_completes`. -/
def State.pushed (i : RegIdx) : State :=
  ((s.setReg spReg s.spBelow).memWrite s.spBelow (if i = spReg then s.spBelow else s.reg i)).advance 2

theorem State.spBelow_toNat : s.spBelow.toNat = s.sp.toNat - 1 := by
  have hlt := s.sp.isLt
  simp only [State.spBelow, BitVec.toNat_ofNat]
  omega

variable {s} {r : Byte} (i : RegIdx)

theorem pushHandler_ok (hsp : s.sp.toNat ≠ 0) : pushHandler i s = .ok (s.pushed i) := by
  simp [pushHandler, movedSp_down hsp, Except.bind, State.pushed, State.spBelow, State.reg_setReg, eq_comm (a := spReg)]

theorem exec_push_completes (hr : r.toNat < 8) (hsp : s.sp.toNat ≠ 0) :
    exec (.push r) s = .next (s.pushed ⟨r.toNat, hr⟩) :=
  calc exec (.push r) s
      _ = commit s (pushHandler ⟨r.toNat, hr⟩ s) := withRegister_ok hr s _
      _ = .next (s.pushed ⟨r.toNat, hr⟩) := by rw [pushHandler_ok _ hsp, commit_ok]

@[simp] theorem State.pushed_status : (s.pushed i).status = s.status := rfl

@[simp] theorem State.pushed_sp : (s.pushed i).sp = s.spBelow := by simp [State.pushed]

theorem State.pushed_reg_ne {j : RegIdx} (hj : j ≠ spReg) : (s.pushed i).reg j = s.reg j := by
  simp [State.pushed, State.reg_setReg_ne _ _ _ _ hj.symm]

theorem State.pushed_mem_wf (hm : Memory.wf s.mem) : Memory.wf (s.pushed i).mem :=
  State.memWrite_wf (s := s.setReg spReg s.spBelow) hm _ _

/-- The byte just below the old stack pointer is the pushed one; for R7 that is the new pointer (R104). -/
theorem State.pushed_read_same (hm : Memory.wf s.mem) :
    (s.pushed i).mem.read (s.sp.toNat - 1) = if i = spReg then s.spBelow else s.reg i := by
  rw [← s.spBelow_toNat]
  exact Memory.read_write_same hm.1 _ _

theorem State.pushed_read_ne {a : Nat} (ha : a ≠ s.sp.toNat - 1) : (s.pushed i).mem.read a = s.mem.read a :=
  Memory.read_write_ne _ _ (by rwa [s.spBelow_toNat])

/-! ### Any number of PUSHes -/

theorem execAll_cons_running {j : Instr} {js : List Instr} {t : State} (h : exec j s = .next t)
    (ht : t.status = .running) : execAll (j :: js) s = execAll js t := by
  simp [execAll, h, ht]

/-- The byte the push of register field `f` stores when the pointer goes down to `a`: the register, or for R7 the
decremented pointer itself (R104). -/
def pushedByte (s : State) (f : Byte) (a : Nat) : Byte := if f.toNat = 7 then BitVec.ofNat 8 a else regAt s f

/-- An earlier PUSH changes no register that a later one stores. -/
theorem pushedByte_pushed (f : Byte) (a : Nat) : pushedByte (s.pushed i) f a = pushedByte s f a := by
  unfold pushedByte regAt
  split
  · rfl
  · next h7 =>
    split
    · next hf => exact State.pushed_reg_ne i (Fin.ne_of_val_ne h7)
    · rfl

theorem State.pushed_read_pushedByte (hr : r.toNat < 8) (hm : Memory.wf s.mem) :
    (s.pushed ⟨r.toNat, hr⟩).mem.read (s.sp.toNat - 1) = pushedByte s r (s.sp.toNat - 1) := by
  simp [State.pushed_read_same _ hm, pushedByte, regAt, hr, State.spBelow, Fin.ext_iff]

/-- The stack in `t` is the one in `s` with the registers `rs` pushed, the latest lowest (10_state.md R23). -/
structure StackExtends (rs : List Byte) (s t : State) : Prop where
  sp : t.sp.toNat = s.sp.toNat - rs.length
  cells : ∀ k (hk : k < rs.length), t.mem.read (s.sp.toNat - 1 - k) = pushedByte s rs[k] (s.sp.toNat - 1 - k)
  rest : ∀ a, a < s.sp.toNat - rs.length ∨ s.sp.toNat ≤ a → t.mem.read a = s.mem.read a

theorem StackExtends.nil (s : State) : StackExtends [] s s :=
  ⟨rfl, nofun, fun _ _ => rfl⟩

/-- One PUSH and then those of `rs`: the later ones leave the first one's cell alone, since it is not below their
initial pointer. -/
theorem StackExtends.cons {rs : List Byte} {t : State} (hr : r.toNat < 8) (hm : Memory.wf s.mem)
    (hlen : rs.length < s.sp.toNat) (h : StackExtends rs (s.pushed ⟨r.toNat, hr⟩) t) :
    StackExtends (r :: rs) s t := by
  obtain ⟨hsp, hcells, hrest⟩ := h
  simp only [State.pushed_sp, State.spBelow_toNat, pushedByte_pushed] at hsp hcells hrest
  refine ⟨?sp, fun k hk => ?cells, fun a ha => ?rest⟩
  case sp => rw [hsp, List.length_cons]; omega
  case cells =>
    cases k with
    | zero =>
      calc t.mem.read (s.sp.toNat - 1)
          _ = (s.pushed ⟨r.toNat, hr⟩).mem.read (s.sp.toNat - 1) := hrest _ (.inr (Nat.le_refl _))
          _ = pushedByte s r (s.sp.toNat - 1) := State.pushed_read_pushedByte hr hm
    | succ k =>
      rw [show s.sp.toNat - 1 - (k + 1) = s.sp.toNat - 1 - 1 - k by omega]
      exact hcells k (Nat.lt_of_succ_lt_succ hk)
  case rest =>
    rw [List.length_cons] at ha
    rw [hrest a (by omega), State.pushed_read_ne _ (by omega)]

/-- Consecutive pushes that the stack has room for all complete. -/
theorem execAll_pushes (rs : List Byte) (s : State) (hrs : ∀ r ∈ rs, r.toNat < 8) (hrun : s.status = .running)
    (hm : Memory.wf s.mem) (hlen : rs.length ≤ s.sp.toNat) :
    ∃ t, execAll (rs.map Instr.push) s = .next t ∧ StackExtends rs s t := by
  induction rs generalizing s with
  | nil => exact ⟨s, rfl, .nil s⟩
  | cons r rs ih =>
    obtain ⟨hr, hrs⟩ := List.forall_mem_cons.1 hrs
    rw [List.length_cons] at hlen
    have hpush := exec_push_completes (s := s) hr (by omega)
    obtain ⟨t, hexec, ht⟩ := ih (s.pushed ⟨r.toNat, hr⟩) hrs hrun (State.pushed_mem_wf _ hm)
      (by rw [State.pushed_sp, State.spBelow_toNat]; omega)
    exact ⟨t, (execAll_cons_running hpush hrun).trans hexec, .cons hr hm hlen ht⟩

end

/-- Settles O33, by induction on the list of pushes. -/
theorem stackDepthAfterPushes : Obligations.StackDepthAfterPushes := by
  refine ⟨State.reset_sp, fun rs s hrs hrun hm hlen => ?_⟩
  obtain ⟨t, hexec, hsp, hcells, hrest⟩ := execAll_pushes rs s hrs hrun hm hlen
  exact ⟨t, hexec, hsp, hcells, hrest⟩

end Sys2Proof.Machine
end

section
/-! PROOFS. The decoder and the fetch (30_encoding.md R55, R57, R64, R71, R72), and what a step does to the pc and the
configuration, whatever the instruction (R70, R76, R78). -/

namespace Sys2Proof

open Sys2Proof.Claim

/-! ### Lengths -/

@[simp] theorem Handler.length_eq_tableLength (h : Handler) : h.length = tableLength h := by
  cases h <;> rfl

theorem Instr.tableLength_handler (i : Instr) : tableLength i.handler = i.operands.length + 1 := by
  cases i <;> rfl

theorem Instr.operands_length_le (i : Instr) : i.operands.length ≤ 2 := by
  have hle := (Laws.EncodedLength.length_bounds i.handler).2
  rw [Handler.length_eq_tableLength, i.tableLength_handler] at hle
  exact Nat.le_of_succ_le_succ hle

/-! ### The decoder -/

section
variable {c : Config} {op : Byte} {h : Handler} {i : Instr} {bytes rest : List Byte}

theorem takeOne_eq_ok {mk : Byte → Instr} (hd : takeOne mk bytes = .ok (i, rest)) :
    ∃ b, i = mk b ∧ bytes = b :: rest := by
  cases bytes with
  | nil => cases hd
  | cons b bs => cases hd; exact ⟨b, rfl, rfl⟩

theorem takeTwo_eq_ok {mk : Byte → Byte → Instr} (hd : takeTwo mk bytes = .ok (i, rest)) :
    ∃ b1 b2, i = mk b1 b2 ∧ bytes = b1 :: b2 :: rest := by
  match bytes with
  | [] => cases hd
  | [_] => cases hd
  | b1 :: b2 :: _ => cases hd; exact ⟨b1, b2, rfl, rfl⟩

theorem exists_takeOne_eq_ok (mk : Byte → Instr) (hlen : 1 ≤ bytes.length) : ∃ r, takeOne mk bytes = .ok r := by
  match bytes with
  | [] => exact absurd hlen (by decide)
  | b :: bs => exact ⟨(mk b, bs), rfl⟩

theorem exists_takeTwo_eq_ok (mk : Byte → Byte → Instr) (hlen : 2 ≤ bytes.length) :
    ∃ r, takeTwo mk bytes = .ok r := by
  match bytes with
  | [] => exact absurd hlen (by decide)
  | [_] => exact absurd hlen (Nat.not_succ_le_self 1)
  | b1 :: b2 :: bs => exact ⟨(mk b1 b2, bs), rfl⟩

theorem decodeOperands_eq_ok (hd : decodeOperands h bytes = .ok (i, rest)) :
    i.handler = h ∧ bytes = i.operands ++ rest := by
  cases h with
  | hlt => cases hd; exact ⟨rfl, rfl⟩
  | prn | push | pop | jmp | jeq | jne =>
    obtain ⟨_, rfl, rfl⟩ := takeOne_eq_ok hd
    exact ⟨rfl, rfl⟩
  | ldi | mul | cmp | add =>
    obtain ⟨_, _, rfl, rfl⟩ := takeTwo_eq_ok hd
    exact ⟨rfl, rfl⟩

theorem exists_decodeOperands_eq_ok (hlen : tableLength h ≤ bytes.length + 1) :
    ∃ r, decodeOperands h bytes = .ok r := by
  cases h with
  | hlt => exact ⟨(.hlt, bytes), rfl⟩
  | prn | push | pop | jmp | jeq | jne => exact exists_takeOne_eq_ok _ (Nat.le_of_succ_le_succ hlen)
  | ldi | mul | cmp | add => exact exists_takeTwo_eq_ok _ (Nat.le_of_succ_le_succ hlen)

theorem decode_cons_of_some (hop : c.branchTable op = some h) : decode c (op :: bytes) = decodeOperands h bytes := by
  simp only [decode, hop]

theorem decode_cons_of_none (hop : c.branchTable op = none) :
    decode c (op :: bytes) = .error (.unknownOpcode op) := by
  simp only [decode, hop]

/-- All that a successful decode says: the opcode byte selects the handler, and the operand bytes follow it (R58). -/
theorem decode_cons_eq_ok (hd : decode c (op :: bytes) = .ok (i, rest)) :
    c.branchTable op = some i.handler ∧ bytes = i.operands ++ rest := by
  cases hop : c.branchTable op with
  | none => rw [decode_cons_of_none hop] at hd; cases hd
  | some h =>
    rw [decode_cons_of_some hop] at hd
    obtain ⟨rfl, hbytes⟩ := decodeOperands_eq_ok hd
    exact ⟨rfl, hbytes⟩

theorem decode_cons_length (hd : decode c (op :: bytes) = .ok (i, rest)) :
    (op :: bytes).length = tableLength i.handler + rest.length := by
  obtain ⟨-, rfl⟩ := decode_cons_eq_ok hd
  rw [i.tableLength_handler, List.length_cons, List.length_append]
  omega

/-- An opcode byte of the branch table decodes exactly where its instruction's bytes are all there (R73). -/
theorem exists_decode_cons_eq_ok_iff (hop : c.branchTable op = some h) :
    (∃ i rest, decode c (op :: bytes) = .ok (i, rest)) ↔ tableLength h ≤ (op :: bytes).length := by
  constructor
  · rintro ⟨i, rest, hd⟩
    obtain rfl : h = i.handler := Option.some.inj (hop.symm.trans (decode_cons_eq_ok hd).1)
    exact decode_cons_length hd ▸ Nat.le_add_right _ _
  · intro hlen
    obtain ⟨⟨i, rest⟩, hd⟩ := exists_decodeOperands_eq_ok hlen
    exact ⟨i, rest, (decode_cons_of_some hop).trans hd⟩

end

/-- Settles O3: the handler comes from the branch table, and its operand bytes make up the table's length. -/
theorem lengthDependsOnOpcodeAlone : Obligations.LengthDependsOnOpcodeAlone := by
  refine ⟨fun c op h hop rest i left hd => ?_, fun c op h hop rest => exists_decode_cons_eq_ok_iff hop,
    fun c op rest hop => decode_cons_of_none hop⟩
  obtain rfl : h = i.handler := Option.some.inj (hop.symm.trans (decode_cons_eq_ok hd).1)
  exact ⟨rfl, i.handler.length_eq_tableLength, decode_cons_length hd⟩

end Sys2Proof

namespace Sys2Proof.Machine

open Sys2Proof Sys2Proof.Claim

/-! ### The fetch -/

section
variable {s : State} {i : Instr} {rest : List Byte}

theorem State.fetchBytes_length (s : State) : s.fetchBytes.length = min 3 (256 - s.pc.toNat) := by
  simp [State.fetchBytes, maxInstrBytes]

theorem State.fetchBytes_getElem? {k : Nat} (hk : k < 3) (hpc : s.pc.toNat + k ≤ 255) :
    s.fetchBytes[k]? = some (s.mem.read (s.pc.toNat + k)) := by
  have hlt : k < s.fetchBytes.length := by rw [s.fetchBytes_length]; omega
  rw [List.getElem?_eq_getElem hlt]
  simp [State.fetchBytes]

/-- A fetch inside memory sees the opcode byte first. -/
theorem State.fetchBytes_eq_cons (hpc : s.pc.toNat ≤ 255) :
    ∃ rest, s.fetchBytes = s.mem.read s.pc.toNat :: rest :=
  List.head?_eq_some_iff.1 ((List.head?_eq_getElem?).trans (State.fetchBytes_getElem? (by decide) hpc))

theorem State.fetchInstr_of_decode (hd : decode s.cfg s.fetchBytes = .ok (i, rest)) : s.fetchInstr = .ok i := by
  simp only [State.fetchInstr, hd]

theorem State.fetchInstr_of_unknown {op : Byte} (hd : decode s.cfg s.fetchBytes = .error (.unknownOpcode op)) :
    s.fetchInstr = .error (.unknownInstruction op) := by
  simp only [State.fetchInstr, hd]

/-- An opcode byte with no handler is never an instruction, whatever follows it (R64, R72). -/
theorem State.fetchInstr_of_branchTable_none (hpc : s.pc.toNat ≤ 255)
    (hop : s.cfg.branchTable (s.mem.read s.pc.toNat) = none) :
    s.fetchInstr = .error (.unknownInstruction (s.mem.read s.pc.toNat)) := by
  obtain ⟨rest, hcons⟩ := State.fetchBytes_eq_cons hpc
  exact State.fetchInstr_of_unknown (hcons ▸ decode_cons_of_none hop)

/-- An opcode byte's handler is what is fetched, where all its bytes lie in memory (R72, R73). -/
theorem State.exists_fetchInstr_of_branchTable_some {h : Handler} (hpc : s.pc.toNat ≤ 255)
    (hop : s.cfg.branchTable (s.mem.read s.pc.toNat) = some h) (hfits : s.pc.toNat + tableLength h ≤ 256) :
    ∃ i, i.handler = h ∧ s.fetchInstr = .ok i := by
  obtain ⟨bytes, hcons⟩ := State.fetchBytes_eq_cons hpc
  have hlen : tableLength h ≤ (s.mem.read s.pc.toNat :: bytes).length := by
    have hmax := (Laws.EncodedLength.length_bounds h).2
    rw [Handler.length_eq_tableLength, maxInstrBytes] at hmax
    rw [← hcons, s.fetchBytes_length]
    omega
  obtain ⟨i, rest, hd⟩ := (exists_decode_cons_eq_ok_iff hop).2 hlen
  have hhandler := Option.some.inj ((decode_cons_eq_ok hd).1.symm.trans hop)
  exact ⟨i, hhandler, State.fetchInstr_of_decode (hcons ▸ hd)⟩

end

/-- Settles O8: the branch table alone decides between the error and the handler. -/
theorem opcodeLookup : Obligations.OpcodeLookup := by
  intro s hrun hpc
  constructor
  · intro hop
    exact step_fetch_error hrun (State.fetchInstr_of_branchTable_none hpc hop)
  · intro h hop hfits
    obtain ⟨i, hhandler, hfetch⟩ := State.exists_fetchInstr_of_branchTable_some hpc hop hfits
    exact ⟨i, hhandler, step_fetched hrun hfetch⟩

/-- Settles O56: clause by clause, from what a successful decode says and what a fetch sees. -/
theorem opcodeThenOperandBytes : Obligations.OpcodeThenOperandBytes := by
  refine ⟨fun c bytes i rest hd => ?operands, fun c op bytes bytes' rest rest' i i' hd hd' => ?fixed,
    fun s k hk hpc => State.fetchBytes_getElem? hk hpc, fun c => ⟨rfl, fun _ => rfl, fun _ _ => rfl⟩⟩
  case operands =>
    cases bytes with
    | nil => cases hd
    | cons op bytes =>
      obtain ⟨hop, rfl⟩ := decode_cons_eq_ok hd
      exact ⟨op, i.operands, rfl, hop, rfl, i.operands_length_le⟩
  case fixed =>
    have hhandler : i.handler = i'.handler :=
      Option.some.inj ((decode_cons_eq_ok hd).1.symm.trans (decode_cons_eq_ok hd').1)
    have hlen := congrArg tableLength hhandler
    rw [i.tableLength_handler, i'.tableLength_handler] at hlen
    exact Nat.succ.inj hlen

/-! ### What an instruction does to the configuration and the pc -/

section
variable {i : Instr} {s t : State}

/-- What every instruction that completes does: the configuration stays, and the pc goes where R76 puts it. The pc is
9 bits, so where the instruction does not fit in memory, which no step runs, the sum wraps (log 12). -/
structure Completes (i : Instr) (s t : State) : Prop where
  cfg : t.cfg = s.cfg
  pc : t.pc = BitVec.ofNat 9 (pcAfter i s)

/-- What running an instruction ends in: it completes, or it raises an error and commits nothing (R14). -/
def Ends (i : Instr) (s : State) (o : Host.Outcome State Fault Refusal) : Prop :=
  (∃ t, o = .next t ∧ Completes i s t) ∨ ∃ e, o = .next (s.raise e)

/-! #### The shared operations -/

theorem commit_ends {r : Except CoreError State} (h : ∀ t, r = .ok t → Completes i s t) :
    Ends i s (commit s r) := by
  obtain ⟨t, hr, hc⟩ | ⟨e, -, hc⟩ := commit_cases s r
  · exact .inl ⟨t, hc, h t hr⟩
  · exact .inr ⟨e, hc⟩

theorem withRegister_ends {f : Byte} {k : RegIdx → Except CoreError State}
    (h : ∀ (hf : f.toNat < 8) (t : State), k ⟨f.toNat, hf⟩ = .ok t → Completes i s t) :
    Ends i s (withRegister f s k) := by
  by_cases hf : f.toNat < 8
  · rw [withRegister_ok hf]; exact commit_ends (h hf)
  · exact .inr ⟨_, withRegister_error hf s k⟩

theorem withRegisters_ends {fa fb : Byte} {k : RegIdx → RegIdx → Except CoreError State}
    (h : ∀ (a b : RegIdx) (t : State), k a b = .ok t → Completes i s t) : Ends i s (withRegisters fa fb s k) := by
  by_cases ha : fa.toNat < 8
  · by_cases hb : fb.toNat < 8
    · rw [withRegisters_ok ha hb]; exact commit_ends (h _ _)
    · exact .inr ⟨_, withRegisters_error_second ha hb s k⟩
  · exact .inr ⟨_, withRegisters_error_first ha fb s k⟩

/-- A handler whose last write advances the pc, after writes that leave the configuration and the pc alone. -/
theorem completes_advance {u : State} {n : Nat} (hcfg : u.cfg = s.cfg) (hpc : u.pc = s.pc)
    (hn : pcAfter i s = s.pc.toNat + n) : Completes i s (u.advance n) where
  cfg := hcfg
  pc := by rw [State.advance_pc, hpc, hn, BitVec.ofNat_add, BitVec.ofNat_toNat, BitVec.setWidth_eq]

theorem aluHandler_completes {op : AluOp} {dst a b : RegIdx} (hn : pcAfter i s = s.pc.toNat + 3)
    (h : aluHandler op dst a b s = .ok t) : Completes i s t := by
  unfold aluHandler at h
  split at h
  · cases h; exact completes_advance rfl rfl hn
  · cases h; exact completes_advance rfl rfl hn
  · cases h

theorem except_bind_eq_ok {α β : Type} {x : Except CoreError α} {k : α → Except CoreError β} {b : β}
    (h : x.bind k = .ok b) : ∃ a, x = .ok a ∧ k a = .ok b := by
  cases x with
  | error e => cases h
  | ok a => exact ⟨a, rfl, h⟩

theorem pushHandler_completes {j : RegIdx} (hn : pcAfter i s = s.pc.toNat + 2) (h : pushHandler j s = .ok t) :
    Completes i s t := by
  obtain ⟨sp, -, ht⟩ := except_bind_eq_ok h
  cases ht
  exact completes_advance rfl rfl hn

theorem popHandler_completes {j : RegIdx} (hn : pcAfter i s = s.pc.toNat + 2) (h : popHandler j s = .ok t) :
    Completes i s t := by
  obtain ⟨sp, -, ht⟩ := except_bind_eq_ok h
  cases ht
  exact completes_advance rfl rfl hn

theorem regAt_of_lt {f : Byte} (hf : f.toNat < 8) : regAt s f = s.reg ⟨f.toNat, hf⟩ := dif_pos hf

theorem branchHandler_completes {taken : Bool} {f : Byte} (hf : f.toNat < 8)
    (hn : pcAfter i s = if taken then (regAt s f).toNat else s.pc.toNat + 2)
    (h : branchHandler taken ⟨f.toNat, hf⟩ s = .ok t) : Completes i s t := by
  cases h
  cases taken with
  | true => exact ⟨rfl, by simp [hn, regAt_of_lt hf, BitVec.ofNat_toNat]⟩
  | false => exact completes_advance rfl rfl hn

/-! #### Every instruction, and the step -/

theorem exec_ends (i : Instr) (s : State) : Ends i s (exec i s) := by
  cases i with
  | hlt => exact .inl ⟨s.halt.advance 1, rfl, completes_advance rfl rfl rfl⟩
  | ldi r imm => exact withRegister_ends fun _ _ h => by cases h; exact completes_advance rfl rfl rfl
  | prn r => exact withRegister_ends fun _ _ h => by cases h; exact completes_advance rfl rfl rfl
  | mul x1 x2 => exact commit_ends (r := aluHandler .mul 0 0 1 s) fun _ => aluHandler_completes rfl
  | cmp x1 x2 => exact commit_ends (r := aluHandler .cmp 0 0 1 s) fun _ => aluHandler_completes rfl
  | push r => exact withRegister_ends fun _ _ => pushHandler_completes rfl
  | pop r => exact withRegister_ends fun _ _ => popHandler_completes rfl
  | jmp r => exact withRegister_ends fun hr _ => branchHandler_completes hr rfl
  | jeq r => exact withRegister_ends fun hr _ => branchHandler_completes hr rfl
  | jne r =>
    have hpc : pcAfter (.jne r) s = if !s.flags.e then (regAt s r).toNat else s.pc.toNat + 2 := by
      cases he : s.flags.e <;> simp [pcAfter, he]
    exact withRegister_ends fun hr _ => branchHandler_completes hr hpc
  | add ra rb => exact withRegisters_ends fun _ _ _ => aluHandler_completes rfl

theorem exec_eq_next (h : exec i s = .next t) : Completes i s t ∨ ∃ e, t = s.raise e := by
  obtain ⟨u, hu, hc⟩ | ⟨e, he⟩ := exec_ends i s
  · cases h.symm.trans hu; exact .inl hc
  · cases h.symm.trans he; exact .inr ⟨e, rfl⟩

theorem exists_exec_eq_next (i : Instr) (s : State) : ∃ t, exec i s = .next t := by
  obtain ⟨t, ht, -⟩ | ⟨e, he⟩ := exec_ends i s
  · exact ⟨t, ht⟩
  · exact ⟨_, he⟩

/-- A Running core's step is the fetched instruction's, or raises the fetch's error (R71-R73). -/
theorem step_running_cases (hrun : s.status = .running) :
    (∃ i, step s = exec i s) ∨ ∃ e, step s = .next (s.raise e) := by
  cases hf : s.fetchInstr with
  | error e => exact .inr ⟨e, step_fetch_error hrun hf⟩
  | ok i => exact .inl ⟨i, step_fetched hrun hf⟩

theorem exists_step_eq_next (hrun : s.status = .running) : ∃ t, step s = .next t := by
  obtain ⟨i, hi⟩ | ⟨e, he⟩ := step_running_cases hrun
  · exact hi ▸ exists_exec_eq_next i s
  · exact ⟨_, he⟩

theorem status_of_step_eq_next (h : step s = .next t) : s.status = .running := by
  cases hs : s.status with
  | running => rfl
  | halted => rw [step_halted hs] at h; cases h

theorem step_eq_next (h : step s = .next t) : (∃ i, Completes i s t) ∨ ∃ e, t = s.raise e := by
  obtain ⟨i, hi⟩ | ⟨e, he⟩ := step_running_cases (status_of_step_eq_next h)
  · exact (exec_eq_next (hi.symm.trans h)).imp_left fun hc => ⟨i, hc⟩
  · cases h.symm.trans he; exact .inr ⟨e, rfl⟩

/-! #### The configuration -/

theorem step_cfg (h : step s = .next t) : t.cfg = s.cfg := by
  obtain ⟨i, hc⟩ | ⟨e, rfl⟩ := step_eq_next h
  · exact hc.cfg
  · exact s.raise_cfg e

theorem State.loadWrite_cfg {addr : Nat} {v : Byte} (h : s.loadWrite addr v = some t) : t.cfg = s.cfg := by
  unfold State.loadWrite at h
  split at h
  · cases h; rfl
  · cases h

theorem State.runInput_cfg (s : State) : s.runInput.cfg = s.cfg := by
  unfold State.runInput
  split <;> rfl

theorem State.accept_cfg {inp : HostInput} (h : s.accept inp = some t) : t.cfg = s.cfg := by
  cases inp with
  | loadWrite addr v => exact State.loadWrite_cfg h
  | run => cases h; exact s.runInput_cfg

/-! #### The pc of a completed instruction -/

theorem CoreError.reason_isError (e : CoreError) : e.reason.IsError := by
  cases e <;> simp [CoreError.reason, HaltReason.IsError]

/-- R76: the next pc is a register's byte, the branch target, or the instruction's own length further on. -/
theorem pcAfter_cases (i : Instr) (s : State) :
    (∃ r, pcAfter i s = (regAt s r).toNat) ∨ pcAfter i s = s.pc.toNat + tableLength i.handler := by
  cases i with
  | jmp r => exact .inl ⟨r, rfl⟩
  | jeq r =>
    cases he : s.flags.e with
    | true => exact .inl ⟨r, if_pos he⟩
    | false => exact .inr (if_neg (he ▸ Bool.false_ne_true))
  | jne r =>
    cases he : s.flags.e with
    | true => exact .inr (if_pos he)
    | false => exact .inl ⟨r, if_neg (he ▸ Bool.false_ne_true)⟩
  | hlt | ldi | prn | mul | cmp | push | pop | add => exact .inr rfl

theorem pcAfter_le (hfits : s.pc.toNat + tableLength i.handler ≤ 256) : pcAfter i s ≤ 256 := by
  obtain ⟨r, hr⟩ | hr := pcAfter_cases i s
  · exact hr ▸ (regAt s r).isLt.le
  · exact hr ▸ hfits

theorem Completes.pc_toNat (h : Completes i s t) (hfits : s.pc.toNat + tableLength i.handler ≤ 256) :
    t.pc.toNat = pcAfter i s := by
  have hle := pcAfter_le hfits
  rw [h.pc, BitVec.toNat_ofNat]
  exact Nat.mod_eq_of_lt (by omega)

end

/-- Settles O13: an outcome that is no error is a completed instruction. -/
theorem pcAdvance : Obligations.PcAdvance := by
  intro i s t _ _ hfits hexec hgood
  obtain hc | ⟨e, rfl⟩ := exec_eq_next hexec
  · have hpc := hc.pc_toNat hfits
    exact ⟨hpc, hpc ▸ pcAfter_le hfits⟩
  · exact absurd e.reason_isError hgood

/-- Settles O17: the branch table reads the configuration alone, which no step and no host input writes. -/
theorem branchTableNeverChanges : Obligations.BranchTableNeverChanges :=
  ⟨fun _ _ h _ => by rw [step_cfg h], fun _ _ _ h _ => by rw [State.accept_cfg h]⟩

/-- Settles O6: the fetch answers an error or an instruction, and each of them gives a next state. -/
theorem runningStepsAndHaltedDoesNot : Obligations.RunningStepsAndHaltedDoesNot :=
  ⟨fun _ hrun => exists_step_eq_next hrun, fun _ hhalt => step_halted hhalt⟩

end Sys2Proof.Machine
end

section
/-! PROOFS. Encodings of three bytes (30_encoding.md R56-R58, R73), MUL, CMP and ADD (40_alu.md R86-R88), and the frame
of the flags (40_alu.md R85). -/

namespace Sys2Proof

open Sys2Proof.Claim

/-! ### An opcode byte of an admitted map -/

section
variable {c : Config} {h : Handler} {bytes : List Byte}

/-- Under a map that R56 admits a handler's byte selects that handler, since no other one has the byte. -/
theorem Config.branchTable_byte (hc : c.Admissible) (hh : h ∈ c.handlers) :
    c.branchTable (c.opcodeMap.byte h) = some h := by
  have hsome : (c.branchTable (c.opcodeMap.byte h)).isSome :=
    List.find?_isSome.2 ⟨h, hh, beq_self_eq_true _⟩
  obtain ⟨h', hfind⟩ := Option.isSome_iff_exists.1 hsome
  have hbyte : c.opcodeMap.byte h' = c.opcodeMap.byte h :=
    eq_of_beq (List.find?_some (p := (c.opcodeMap.byte · == _)) hfind)
  rw [hfind, List.inj_on_of_nodup_map hc.1 (List.mem_of_find?_eq_some hfind) hh hbyte]

theorem takeOne_of_length_lt {mk : Byte → Instr} (hlen : bytes.length < 1) :
    takeOne mk bytes = .error .truncated := by
  match bytes with
  | [] => rfl
  | _ :: _ => exact absurd hlen (by simp)

theorem takeTwo_of_length_lt {mk : Byte → Byte → Instr} (hlen : bytes.length < 2) :
    takeTwo mk bytes = .error .truncated := by
  match bytes with
  | [] | [_] => rfl
  | _ :: _ :: _ => exact absurd hlen (by simp)

/-- Operand bytes that end before the instruction does are no instruction (R73). -/
theorem decodeOperands_of_length_lt (hlen : bytes.length + 1 < tableLength h) :
    decodeOperands h bytes = .error .truncated := by
  cases h with
  | hlt => exact absurd hlen (by simp [tableLength])
  | prn | push | pop | jmp | jeq | jne => exact takeOne_of_length_lt (Nat.lt_of_succ_lt_succ hlen)
  | ldi | mul | cmp | add => exact takeTwo_of_length_lt (Nat.lt_of_succ_lt_succ hlen)

end

end Sys2Proof

namespace Sys2Proof.Machine

open Sys2Proof Sys2Proof.Claim

/-! ### The extent check -/

section
variable {s : State} {h : Handler}

theorem State.fetchInstr_of_truncated (hd : decode s.cfg s.fetchBytes = .error .truncated) :
    s.fetchInstr = .error (.fetch memSize) := by
  simp only [State.fetchInstr, hd]

theorem State.fetchInstr_of_extent (hat : AtOpcode h s) (hlen : 256 < s.pc.toNat + tableLength h) :
    s.fetchInstr = .error (.fetch memSize) := by
  obtain ⟨bytes, hcons⟩ := State.fetchBytes_eq_cons hat.inMemory
  have hbytes : bytes.length + 1 = min 3 (256 - s.pc.toNat) := by
    rw [← s.fetchBytes_length, hcons, List.length_cons]
  have hop : s.cfg.branchTable (s.mem.read s.pc.toNat) = some h :=
    hat.opcode ▸ Config.branchTable_byte hat.admissible hat.decodable
  refine State.fetchInstr_of_truncated ?_
  rw [hcons, decode_cons_of_some hop]
  exact decodeOperands_of_length_lt (by omega)

/-- An instruction that runs past the end of memory raises FETCH, before anything of it runs (R73, R79). -/
theorem step_extent_error (hat : AtOpcode h s) (hlen : 256 < s.pc.toNat + tableLength h) :
    step s = .next (errorState s .boundsError .fetch 256) :=
  step_fetch_error hat.running (State.fetchInstr_of_extent hat hlen)

end

/-- Encoding and FETCH error of every handler that reads two operand bytes. -/
theorem formThree_of_takeTwo {h : Handler} {dflt : Byte} {mk : Byte → Byte → Instr}
    (hdflt : defaultOpcodeMap.byte h = dflt) (hlen : tableLength h = 3)
    (hops : ∀ bytes, decodeOperands h bytes = takeTwo mk bytes) : FormThree h dflt mk := by
  refine ⟨hdflt, fun c b1 b2 rest hc hh => ?decodes, fun s hat hpc => ?extent⟩
  case decodes =>
    rw [decode_cons_of_some (Config.branchTable_byte hc hh), hops]
    rfl
  case extent => exact step_extent_error hat (by omega)

/-! ### MUL, CMP and ADD -/

theorem exec_mul (x1 x2 : Byte) (s : State) :
    exec (.mul x1 x2) s = .next ((s.setReg 0 (aluMul (s.reg 0) (s.reg 1))).advance 3) := rfl

theorem exec_cmp (x1 x2 : Byte) (s : State) :
    exec (.cmp x1 x2) s = .next ((s.setFlags (aluCmp (s.reg 0) (s.reg 1))).advance 3) := rfl

theorem exec_add {ra rb : Byte} (ha : ra.toNat < 8) (hb : rb.toNat < 8) (s : State) :
    exec (.add ra rb) s =
      .next ((s.setReg ⟨ra.toNat, ha⟩ (aluAdd (s.reg ⟨ra.toNat, ha⟩) (s.reg ⟨rb.toNat, hb⟩))).advance 3) :=
  withRegisters_ok ha hb s _

theorem exec_add_error_first {ra : Byte} (ha : ¬ra.toNat < 8) (rb : Byte) (s : State) :
    exec (.add ra rb) s = .next (s.raise (.register ra)) :=
  withRegisters_error_first ha rb s _

theorem exec_add_error_second {ra rb : Byte} (ha : ra.toNat < 8) (hb : ¬rb.toNat < 8) (s : State) :
    exec (.add ra rb) s = .next (s.raise (.register rb)) :=
  withRegisters_error_second ha hb s _

/-- The E flag compares the bytes themselves: bytes of one numeric value are one byte. -/
theorem aluCmp_eq (a b : Byte) :
    aluCmp a b = { e := decide (a = b), l := decide (a.toNat < b.toNat), g := decide (b.toNat < a.toNat) } := by
  simp only [aluCmp, BitVec.toNat_inj, gt_iff_lt]

/-- Settles O24: MUL writes `aluMul` of registers 0 and 1. -/
theorem mulMultiplies : Obligations.MulMultiplies :=
  ⟨formThree_of_takeTwo rfl rfl fun _ => rfl, exec_mul⟩

/-- Settles O25: CMP writes `aluCmp` of registers 0 and 1. -/
theorem cmpWritesAllFlags : Obligations.CmpWritesAllFlags := by
  refine ⟨formThree_of_takeTwo rfl rfl fun _ => rfl, fun x1 x2 s => ?_⟩
  rw [exec_cmp, aluCmp_eq]
  rfl

/-- Settles O26: the register checks in field order, and then `aluAdd`. -/
theorem addAddsRegisters : Obligations.AddAddsRegisters :=
  ⟨formThree_of_takeTwo rfl rfl fun _ => rfl,
    fun _ rb s ha => exec_add_error_first (Nat.not_lt.2 ha) rb s,
    fun _ _ s ha hb => exec_add_error_second ha (Nat.not_lt.2 hb) s,
    fun _ _ s ha hb => exec_add ha hb s⟩

/-! ### What holds of every next state

A property of next states that every raise has needs checking of the handler's own results alone. -/

section
variable {s t : State} {P : State → Prop} (hraise : ∀ e, P (s.raise e))
include hraise

theorem commit_next_of {r : Except CoreError State} (hr : ∀ u, r = .ok u → P u) (h : commit s r = .next t) :
    P t := by
  obtain ⟨u, hu, hc⟩ | ⟨e, -, hc⟩ := commit_cases s r
  · cases h.symm.trans hc; exact hr _ hu
  · cases h.symm.trans hc; exact hraise e

theorem withRegister_next_of {f : Byte} {k : RegIdx → Except CoreError State}
    (hk : ∀ (hf : f.toNat < 8) (u : State), k ⟨f.toNat, hf⟩ = .ok u → P u)
    (h : withRegister f s k = .next t) : P t := by
  by_cases hf : f.toNat < 8
  · rw [withRegister_ok hf] at h; exact commit_next_of hraise (hk hf) h
  · rw [withRegister_error hf] at h; cases h; exact hraise _

theorem withRegisters_next_of {fa fb : Byte} {k : RegIdx → RegIdx → Except CoreError State}
    (hk : ∀ (ha : fa.toNat < 8) (hb : fb.toNat < 8) (u : State), k ⟨fa.toNat, ha⟩ ⟨fb.toNat, hb⟩ = .ok u → P u)
    (h : withRegisters fa fb s k = .next t) : P t := by
  by_cases ha : fa.toNat < 8
  · by_cases hb : fb.toNat < 8
    · rw [withRegisters_ok ha hb] at h; exact commit_next_of hraise (hk ha hb) h
    · rw [withRegisters_error_second ha hb] at h; cases h; exact hraise _
  · rw [withRegisters_error_first ha] at h; cases h; exact hraise _

end

/-! ### The flags -/

section
variable {i : Instr} {s t : State} {j : RegIdx}

theorem pushHandler_flags (h : pushHandler j s = .ok t) : t.flags = s.flags := by
  obtain ⟨sp, -, ht⟩ := except_bind_eq_ok h
  cases ht; rfl

theorem popHandler_flags (h : popHandler j s = .ok t) : t.flags = s.flags := by
  obtain ⟨sp, -, ht⟩ := except_bind_eq_ok h
  cases ht; rfl

theorem branchHandler_flags {taken : Bool} (h : branchHandler taken j s = .ok t) : t.flags = s.flags := by
  cases h
  cases taken <;> rfl

/-- Every instruction but CMP keeps the flags, on completion and on an error (R85). -/
theorem exec_flags (hi : ∀ x1 x2, i ≠ .cmp x1 x2) (h : exec i s = .next t) : t.flags = s.flags := by
  cases i with
  | cmp x1 x2 => exact absurd rfl (hi x1 x2)
  | hlt | mul => cases h; rfl
  | ldi | prn =>
    exact withRegister_next_of (P := (·.flags = s.flags)) s.raise_flags (fun _ _ hk => by cases hk; rfl) h
  | push => exact withRegister_next_of s.raise_flags (fun _ _ => pushHandler_flags) h
  | pop => exact withRegister_next_of s.raise_flags (fun _ _ => popHandler_flags) h
  | jmp | jeq | jne => exact withRegister_next_of s.raise_flags (fun _ _ => branchHandler_flags) h
  | add =>
    exact withRegisters_next_of (P := (·.flags = s.flags)) s.raise_flags (fun _ _ _ hk => by cases hk; rfl) h

end

/-- Settles O42: an instruction that is no CMP keeps the flags. -/
theorem onlyCmpChangesFlags : Obligations.OnlyCmpChangesFlags := by
  refine ⟨fun i s t h hne => ?_, fun _ _ _ _ h => exec_flags (fun _ _ => Instr.noConfusion) h,
    fun _ _ _ _ h => exec_flags (fun _ _ => Instr.noConfusion) h⟩
  by_contra hi
  exact hne (exec_flags (fun x1 x2 hcmp => hi ⟨x1, x2, hcmp⟩) h)

end Sys2Proof.Machine
end

section
/-! PROOFS. Encodings of two bytes with a register operand (30_encoding.md R56-R58, R73, R74), LDI and PRN
(41_load_output.md R95, R96). -/

namespace Sys2Proof.Machine

open Sys2Proof Sys2Proof.Claim

/-- Encoding, FETCH error and REGISTER error of every handler that reads one operand byte and checks it as a register
before anything else. -/
theorem formFR_of_takeOne {h : Handler} {dflt : Byte} {mk : Byte → Instr} {k : State → RegIdx → Except CoreError State}
    (hdflt : defaultOpcodeMap.byte h = dflt) (hlen : tableLength h = 2)
    (hops : ∀ bytes, decodeOperands h bytes = takeOne mk bytes)
    (hexec : ∀ r s, exec (mk r) s = withRegister r s (k s)) : FormFR h dflt mk := by
  refine ⟨hdflt, fun c r rest hc hh => ?decodes, fun s hat hpc => ?extent, fun r s hr => ?register⟩
  case decodes =>
    rw [decode_cons_of_some (Config.branchTable_byte hc hh), hops]
    rfl
  case extent => exact step_extent_error hat (by omega)
  case register => exact (hexec r s).trans (withRegister_error (Nat.not_lt.2 hr) s _)

/-! ### LDI and PRN -/

section
variable {r : Byte}

theorem exec_ldi (hr : r.toNat < 8) (imm : Byte) (s : State) :
    exec (.ldi r imm) s = .next ((s.setReg ⟨r.toNat, hr⟩ imm).advance 3) :=
  withRegister_ok hr s _

theorem exec_ldi_error (hr : ¬r.toNat < 8) (imm : Byte) (s : State) :
    exec (.ldi r imm) s = .next (s.raise (.register r)) :=
  withRegister_error hr s _

theorem exec_prn (hr : r.toNat < 8) (s : State) :
    exec (.prn r) s = .next ((s.emit (s.reg ⟨r.toNat, hr⟩)).advance 2) :=
  withRegister_ok hr s _

end

/-- LDI 7 loads the stack pointer, which is register 7 itself (R22). -/
theorem exec_ldi_spReg (imm : Byte) (s : State) : ∃ t, exec (.ldi 7 imm) s = .next t ∧ t.sp = imm :=
  ⟨(s.setReg spReg imm).advance 3, exec_ldi (by decide) imm s, by rw [State.advance_sp, State.sp_setReg_spReg]⟩

/-- Settles O22: the register check, and then the write of the immediate. -/
theorem ldiLoadsImmediate : Obligations.LdiLoadsImmediate :=
  ⟨formThree_of_takeTwo rfl rfl fun _ => rfl,
    fun _ imm s hr => exec_ldi_error (Nat.not_lt.2 hr) imm s,
    fun _ imm s hr => exec_ldi hr imm s,
    exec_ldi_spReg⟩

/-- Settles O23: the register check, and then the output of the register's value. -/
theorem prnEmitsRegister : Obligations.PrnEmitsRegister :=
  ⟨formFR_of_takeOne rfl rfl (fun _ => rfl) fun _ _ => rfl, fun _ s hr => exec_prn hr s⟩

end Sys2Proof.Machine
end

section
/-! PROOFS. PUSH and POP whole (42_stack.md R101, R102): encodings, effects, and the stack pointer that moves by one or
raises STACK (R106). -/

namespace Sys2Proof.Machine

open Sys2Proof Sys2Proof.Claim

section
variable {s t : State} {r : Byte}

/-! ### PUSH -/

/-- Nothing but the memory, register 7 and the pc distinguishes the state a completed PUSH leaves from the old one. -/
theorem State.pushed_with_old_mem (i : RegIdx) :
    { s.pushed i with mem := s.mem } = { s with x := s.x.set 7 s.spBelow, pc := s.pc + 2 } := rfl

theorem pushHandler_stack_error (i : RegIdx) (hsp : s.sp.toNat = 0) : pushHandler i s = .error (.stack (-1)) := by
  rw [pushHandler, movedSp_down_zero hsp]
  rfl

theorem exec_push_stack_error (hr : r.toNat < 8) (hsp : s.sp.toNat = 0) :
    exec (.push r) s = .next (errorState s .boundsError .stack (-1)) :=
  calc exec (.push r) s
      _ = commit s (pushHandler ⟨r.toNat, hr⟩ s) := withRegister_ok hr s _
      _ = .next (s.raise (.stack (-1))) := by rw [pushHandler_stack_error _ hsp, commit_error]

/-- A PUSH moves the stack pointer one down, as integers, or raises STACK (R106). -/
theorem exec_push_sp_cases (hr : r.toNat < 8) (h : exec (.push r) s = .next t) :
    (t.sp.toNat + 1 = s.sp.toNat ∧ t.haltReason = s.haltReason) ∨
      (s.sp.toNat = 0 ∧ t = errorState s .boundsError .stack (-1)) := by
  by_cases hsp : s.sp.toNat = 0
  · cases h.symm.trans (exec_push_stack_error hr hsp)
    exact .inr ⟨hsp, rfl⟩
  · cases h.symm.trans (exec_push_completes hr hsp)
    refine .inl ⟨?_, rfl⟩
    rw [State.pushed_sp, State.spBelow_toNat]
    omega

/-! ### POP -/

/-- The pointer that a POP of register field `r` increments: `x[7]` after the register's write, which for R7 is the
popped byte (R102, R105). -/
def State.popPointer (s : State) (r : Byte) : Byte := if r.toNat = 7 then s.memRead s.sp else s.sp

/-- The state a completed POP of register field `r` leaves (R102): `exec_pop_completes`. -/
def State.popped (s : State) (r : Byte) (hr : r.toNat < 8) : State :=
  ((s.setReg ⟨r.toNat, hr⟩ (s.memRead s.sp)).setReg spReg (BitVec.ofNat 8 ((s.popPointer r).toNat + 1))).advance 2

theorem State.sp_setReg_memRead_sp (s : State) (hr : r.toNat < 8) :
    (s.setReg ⟨r.toNat, hr⟩ (s.memRead s.sp)).sp = s.popPointer r := by
  simp only [State.popPointer, State.sp, State.reg_setReg, Fin.ext_iff]
  rfl

theorem popHandler_ok (hr : r.toNat < 8) (hp : (s.popPointer r).toNat ≠ 255) :
    popHandler ⟨r.toNat, hr⟩ s = .ok (s.popped r hr) := by
  rw [popHandler, s.sp_setReg_memRead_sp hr, movedSp_up hp]
  rfl

theorem popHandler_stack_error (hr : r.toNat < 8) (hp : (s.popPointer r).toNat = 255) :
    popHandler ⟨r.toNat, hr⟩ s = .error (.stack 256) := by
  rw [popHandler, s.sp_setReg_memRead_sp hr, movedSp_up_top hp]
  rfl

theorem exec_pop (hr : r.toNat < 8) (s : State) : exec (.pop r) s = commit s (popHandler ⟨r.toNat, hr⟩ s) :=
  withRegister_ok hr s _

theorem exec_pop_completes (hr : r.toNat < 8) (hp : (s.popPointer r).toNat ≠ 255) :
    exec (.pop r) s = .next (s.popped r hr) := by
  rw [exec_pop hr, popHandler_ok hr hp, commit_ok]

theorem exec_pop_stack_error (hr : r.toNat < 8) (hp : (s.popPointer r).toNat = 255) :
    exec (.pop r) s = .next (errorState s .boundsError .stack 256) := by
  rw [exec_pop hr, popHandler_stack_error hr hp, commit_error]
  rfl

theorem State.popped_sp_toNat (hr : r.toNat < 8) (hp : (s.popPointer r).toNat ≠ 255) :
    (s.popped r hr).sp.toNat = (s.popPointer r).toNat + 1 := by
  have hlt := (s.popPointer r).isLt
  rw [State.popped, State.advance_sp, State.sp_setReg_spReg, BitVec.toNat_ofNat]
  omega

/-- A POP moves the pointer that it increments one up, as integers, or raises STACK (R105, R106). -/
theorem exec_pop_sp_cases (hr : r.toNat < 8) (h : exec (.pop r) s = .next t) :
    (t.sp.toNat = (s.popPointer r).toNat + 1 ∧ t.haltReason = s.haltReason) ∨
      ((s.popPointer r).toNat = 255 ∧ t = errorState s .boundsError .stack 256) := by
  by_cases hp : (s.popPointer r).toNat = 255
  · cases h.symm.trans (exec_pop_stack_error hr hp)
    exact .inr ⟨hp, rfl⟩
  · cases h.symm.trans (exec_pop_completes hr hp)
    exact .inl ⟨State.popped_sp_toNat hr hp, rfl⟩

end

/-- Settles O27: the register check, the decrement that may raise STACK, and the one store. -/
theorem pushStoresBelowStackPointer : Obligations.PushStoresBelowStackPointer := by
  refine ⟨formFR_of_takeOne rfl rfl (fun _ => rfl) fun _ _ => rfl, fun _ _ => exec_push_stack_error,
    fun r s hr hm hsp => ⟨s.pushed ⟨r.toNat, hr⟩, exec_push_completes hr hsp, ?stored,
      fun a ha => State.pushed_read_ne _ ha, State.pushed_with_old_mem _⟩⟩
  case stored =>
    simp only [State.pushed_read_same _ hm, Fin.ext_iff]
    rfl

/-- Settles O29: the register check, the write of the popped byte, and the increment that may raise STACK. -/
theorem popLoadsAndIncrements : Obligations.PopLoadsAndIncrements :=
  ⟨formFR_of_takeOne rfl rfl (fun _ => rfl) fun _ _ => rfl,
    fun _ _ => exec_pop_stack_error,
    fun _ _ => exec_pop_completes⟩

/-- Settles O31: the POP of R7 increments the popped byte, every other POP the stack pointer itself. -/
theorem stackPointerNeverWraps : Obligations.StackPointerNeverWraps := by
  refine ⟨fun r s t hr hgood h => ?push, fun r s t hr hgood h => ?pop, fun s t hgood h => ?popSp⟩
  case push => simpa only [hgood] using exec_push_sp_cases hr h
  case pop =>
    have hp : s.popPointer r = s.sp := if_neg (Nat.ne_of_lt hr)
    simpa only [hp, hgood] using exec_pop_sp_cases (Nat.lt_succ_of_lt hr) h
  case popSp =>
    have hp : s.popPointer 7 = s.memRead s.sp := if_pos rfl
    simpa only [hp, hgood] using exec_pop_sp_cases (by decide) h

end Sys2Proof.Machine
end

section
/-! PROOFS. An encoding that stands in memory is what a step runs (30_encoding.md R58, R70-R75), the branches and HLT
(43_control.md R110-R113), and no delay slot (R115). -/

namespace Sys2Proof

/-! ### Decoding an encoding -/

theorem decodeOperands_operands (i : Instr) (rest : List Byte) :
    decodeOperands i.handler (i.operands ++ rest) = .ok (i, rest) := by
  cases i <;> rfl

/-- Decode inverts encode, under every map that R56 admits and whatever bytes follow. -/
theorem decode_encode_append {c : Config} {i : Instr} (hc : c.Admissible) (hi : c.Decodes i) (rest : List Byte) :
    decode c (encode c i ++ rest) = .ok (i, rest) :=
  (decode_cons_of_some (Config.branchTable_byte hc hi)).trans (decodeOperands_operands i rest)

end Sys2Proof

namespace Sys2Proof.Machine

open Sys2Proof Sys2Proof.Claim

/-! ### The step of an instruction that stands in memory -/

section
variable {s : State} {i : Instr}

/-- A fetch sees at least the first `n` bytes from the pc on, where they are in memory and an instruction can have so
many. -/
theorem State.fetchBytes_eq_append {n : Nat} (hn : n ≤ 3) (hfits : s.pc.toNat + n ≤ 256) :
    ∃ rest, s.fetchBytes = (List.range' s.pc.toNat n).map s.mem.read ++ rest := by
  obtain ⟨k, hk⟩ := Nat.exists_eq_add_of_le (show n ≤ min 3 (256 - s.pc.toNat) by omega)
  refine ⟨(List.range' (s.pc.toNat + n) k).map s.mem.read, ?_⟩
  rw [← List.map_append, List.range'_append_1, ← hk]
  rfl

theorem step_of_stands (h : Stands i s) : step s = exec i s := by
  have hlen : i.length ≤ 3 := (Laws.EncodedLength.length_bounds i.handler).2
  obtain ⟨rest, hrest⟩ := State.fetchBytes_eq_append hlen h.fits
  rw [h.bytes] at hrest
  have hdecode := decode_encode_append h.admissible h.decodable rest
  exact step_fetched h.running (State.fetchInstr_of_decode (hrest ▸ hdecode))

end

/-! ### Branches -/

/-- Instruction `i` branches to the address in the register that field `r` names, exactly when `taken` holds of the
flag E (R110-R112). The flags L and G do not enter (R115). -/
def BranchesOn (i : Instr) (r : Byte) (taken : Bool → Bool) : Prop :=
  ∀ s, exec i s = withRegister r s fun j => branchHandler (taken s.flags.e) j s

theorem branchesOn_jmp (r : Byte) : BranchesOn (.jmp r) r fun _ => true := fun _ => rfl

theorem branchesOn_jeq (r : Byte) : BranchesOn (.jeq r) r id := fun _ => rfl

theorem branchesOn_jne (r : Byte) : BranchesOn (.jne r) r not := fun _ => rfl

section
variable {i : Instr} {r : Byte} {taken : Bool → Bool} {s t : State}

theorem BranchesOn.exec_taken (h : BranchesOn i r taken) (hr : r.toNat < 8) (ht : taken s.flags.e = true) :
    exec i s = .next { s with pc := (s.reg ⟨r.toNat, hr⟩).setWidth 9 } := by
  rw [h s, withRegister_ok hr, ht]
  rfl

theorem BranchesOn.exec_not_taken (h : BranchesOn i r taken) (hr : r.toNat < 8) (ht : taken s.flags.e = false) :
    exec i s = .next { s with pc := s.pc + 2 } := by
  rw [h s, withRegister_ok hr, ht]
  rfl

theorem BranchesOn.exec_register_error (h : BranchesOn i r taken) (hr : ¬r.toNat < 8) :
    exec i s = .next (s.raise (.register r)) :=
  (h s).trans (withRegister_error hr s _)

/-- A branch does the same whatever L and G are: it tests E alone (R115). -/
theorem BranchesOn.exec_with_flags (h : BranchesOn i r taken) {f : Flags} (hf : f.e = s.flags.e)
    (hexec : exec i s = .next t) : exec i { s with flags := f } = .next { t with flags := f } := by
  by_cases hr : r.toNat < 8
  · cases ht : taken s.flags.e with
    | true =>
      cases hexec.symm.trans (h.exec_taken hr ht)
      exact h.exec_taken hr (hf ▸ ht)
    | false =>
      cases hexec.symm.trans (h.exec_not_taken hr ht)
      exact h.exec_not_taken hr (hf ▸ ht)
  · cases hexec.symm.trans (h.exec_register_error hr)
    exact h.exec_register_error hr

end

/-- JMP to the address it stands at leaves the state as it is (R110). -/
theorem exec_jmp_self {r : Byte} {s : State} (hr : r.toNat < 8) (hself : (regAt s r).toNat = s.pc.toNat) :
    exec (.jmp r) s = .next s := by
  have hpc : (s.reg ⟨r.toNat, hr⟩).setWidth 9 = s.pc := by
    rw [← regAt_of_lt hr, ← BitVec.ofNat_toNat, hself, BitVec.ofNat_toNat, BitVec.setWidth_eq]
  rw [(branchesOn_jmp r).exec_taken hr rfl, hpc]

/-- Settles O34: JMP is the branch that is always taken. -/
theorem jmpSetsPc : Obligations.JmpSetsPc :=
  ⟨formFR_of_takeOne rfl rfl (fun _ => rfl) fun _ _ => rfl,
    fun r _ hr => (branchesOn_jmp r).exec_taken hr rfl,
    fun _ _ hr hstands hself => (step_of_stands hstands).trans (exec_jmp_self hr hself)⟩

/-- Settles O35: JEQ is the branch taken on E. -/
theorem jeqBranchesOnEqual : Obligations.JeqBranchesOnEqual := by
  refine ⟨formFR_of_takeOne rfl rfl (fun _ => rfl) fun _ _ => rfl, fun r s hr => ?_, rfl⟩
  cases he : s.flags.e with
  | true => exact (branchesOn_jeq r).exec_taken hr he
  | false => exact (branchesOn_jeq r).exec_not_taken hr he

/-- A comparison that sets L or G found the bytes unequal (R83). -/
theorem aluCmp_e_of_l_or_g {a b : Byte} (h : (aluCmp a b).l = true ∨ (aluCmp a b).g = true) :
    (aluCmp a b).e = false := by
  simp only [aluCmp, decide_eq_true_eq, decide_eq_false_iff_not] at h ⊢
  omega

/-- Settles O36: JNE is the branch taken on E false, and a CMP that sets L or G clears E. -/
theorem jneBranchesOnNotEqual : Obligations.JneBranchesOnNotEqual := by
  refine ⟨formFR_of_takeOne rfl rfl (fun _ => rfl) fun _ _ => rfl, fun r s hr => ?branch, fun x1 x2 s t h hlg => ?cmp,
    rfl⟩
  case branch =>
    cases he : s.flags.e with
    | true => exact (branchesOn_jne r).exec_not_taken hr (congrArg not he)
    | false => exact (branchesOn_jne r).exec_taken hr (congrArg not he)
  case cmp =>
    cases h.symm.trans (exec_cmp x1 x2 s)
    exact aluCmp_e_of_l_or_g hlg

/-- Settles O57: a taken branch writes the pc alone, and what stands at the target is what the next step runs. -/
theorem takenBranchHasNoDelaySlot : Obligations.TakenBranchHasNoDelaySlot := by
  refine ⟨fun i j r s hr hi hstands htarget => ⟨?branch, step_of_stands htarget⟩,
    fun i r s t f hi hf hexec => ?flags⟩
  case branch =>
    rw [step_of_stands hstands, regAt_of_lt hr]
    obtain rfl | ⟨rfl, he⟩ | ⟨rfl, he⟩ := hi
    · exact (branchesOn_jmp r).exec_taken hr rfl
    · exact (branchesOn_jeq r).exec_taken hr he
    · exact (branchesOn_jne r).exec_taken hr (congrArg not he)
  case flags =>
    obtain rfl | rfl | rfl := hi
    · exact (branchesOn_jmp r).exec_with_flags hf hexec
    · exact (branchesOn_jeq r).exec_with_flags hf hexec
    · exact (branchesOn_jne r).exec_with_flags hf hexec

/-! ### HLT -/

section
variable {s : State}

theorem exec_hlt (s : State) : exec .hlt s = .next (s.advance 1).halt := rfl

/-- HLT is its opcode byte alone, so it fits at address 255 too (R113). -/
theorem stands_hlt_of_atOpcode (h : AtOpcode .hlt s) : Stands .hlt s where
  running := h.running
  admissible := h.admissible
  decodable := h.decodable
  fits := Nat.succ_le_succ h.inMemory
  bytes := congrArg (fun b => [b]) h.opcode

theorem State.runInput_of_haltReason_ne_none (h : s.haltReason ≠ .none) : s.runInput = s :=
  if_neg fun hns => h hns.2

end

/-- Settles O37: HLT's byte is the whole instruction, and a core that HLT halted neither steps nor starts again. -/
theorem hltHalts : Obligations.HltHalts := by
  refine ⟨rfl, exec_hlt, fun s hat => ?_⟩
  have hstands := stands_hlt_of_atOpcode hat
  exact ⟨(s.advance 1).halt, step_of_stands hstands, ⟨rfl, rfl⟩, s.advance_pc_toNat hstands.fits, step_halted rfl,
    State.runInput_of_haltReason_ne_none nofun⟩

end Sys2Proof.Machine
end

section
/-! PROOFS. A canonical memory is what it reads (10_state.md R33, log 33), and all state is readable through the status
port and the debug observation (60_exceptions.md R136). -/

namespace Sys2Proof.Machine

open Sys2Proof

/-! ### A canonical memory is what it reads -/

section
variable {m m' : Memory} {c : Host.Cell}

/-- The relation that canonical form keeps between cells never holds both ways. -/
theorem asymm_cellBefore : Std.Asymm fun c d : Host.Cell => c.1 < d.1 := ⟨fun _ _ => Nat.lt_asymm⟩

theorem Memory.read_of_mem (hm : m.Pairwise fun c d => c.1 < d.1) (hc : c ∈ m) : m.read c.1 = c.2 := by
  induction hm with
  | nil => cases hc
  | cons hfirst _ ih =>
    rcases List.mem_cons.mp hc with rfl | hc
    · exact if_pos rfl
    · exact (if_neg (Nat.ne_of_gt (hfirst c hc))).trans (ih hc)

theorem Memory.mem_of_read_ne {a : Nat} (h : m.read a ≠ unlistedByte) : (a, m.read a) ∈ m := by
  induction m with
  | nil => exact absurd rfl h
  | cons d rest ih =>
    by_cases hd : a = d.1
    · simp [Memory.read, hd]
    · simp only [Memory.read, if_neg hd] at h ⊢
      exact List.mem_cons_of_mem _ (ih h)

/-- Which cells a canonical memory lists is told by its reads in 0..255. -/
theorem Memory.mem_iff_read (hm : m.wf) : c ∈ m ↔ c.1 < memSize ∧ c.2 ≠ unlistedByte ∧ m.read c.1 = c.2 := by
  constructor
  · intro hc
    obtain ⟨haddr, hbyte⟩ := hm.2 c hc
    exact ⟨haddr, hbyte, read_of_mem hm.1 hc⟩
  · rintro ⟨-, hbyte, hread⟩
    have hmem := mem_of_read_ne (hread ▸ hbyte)
    rwa [hread] at hmem

/-- Canonical memories list the same cells once they read alike, and a list at rising addresses is fixed by its cells. -/
theorem Memory.eq_of_read_eq (hm : m.wf) (hm' : m'.wf) (h : ∀ a < memSize, m.read a = m'.read a) : m = m' := by
  have hasymm := asymm_cellBefore
  refine hm.1.eq_of_mem_iff hm'.1 fun c => ?_
  rw [mem_iff_read hm, mem_iff_read hm']
  exact and_congr_right fun haddr => by rw [h c.1 haddr]

end

/-! ### What the two ports show -/

section
variable {s t : State}

theorem HaltReason.code_injective : Function.Injective HaltReason.code := by
  intro r r'
  cases r <;> cases r' <;> simp [HaltReason.code]

theorem State.observe_bytes_getElem? (s : State) {a : Nat} (ha : a < memSize) :
    s.observe.bytes[a]? = some (s.mem.read a) := by
  simp [State.observe, ha]

theorem State.mem_eq_of_observe_eq (hs : Memory.wf s.mem) (ht : Memory.wf t.mem) (h : s.observe = t.observe) :
    s.mem = t.mem := by
  refine Memory.eq_of_read_eq hs ht fun a ha => Option.some.inj ?_
  rw [← s.observe_bytes_getElem? ha, h, t.observe_bytes_getElem? ha]

/-- Each field is shown by one of the two ports, but for the configuration the core was built with. -/
theorem State.eq_of_shown_eq (hs : Memory.wf s.mem) (ht : Memory.wf t.mem) (hcfg : s.cfg = t.cfg)
    (hport : s.statusPort = t.statusPort) (hobs : s.observe = t.observe) : s = t :=
  State.ext hcfg (mem_eq_of_observe_eq hs ht hobs) (congrArg Observation.regs hobs) (congrArg Observation.pc hobs)
    (congrArg Observation.flags hobs) (congrArg StatusPort.status hport)
    (HaltReason.code_injective (congrArg StatusPort.haltCode hport)) (congrArg StatusPort.errorInfo hport)
    (congrArg Observation.out hobs)

/-! ### The host after a halt -/

theorem State.loadWrite_of_haltReason_ne_none (h : s.haltReason ≠ .none) (addr : Nat) (v : Byte) :
    s.loadWrite addr v = none :=
  if_neg fun hopen => h hopen.1.2

/-- A core that has halted for a reason is left as it is by every host input it accepts (R5, R6). -/
theorem State.accept_of_haltReason_ne_none {inp : HostInput} (h : s.haltReason ≠ .none) (hacc : s.accept inp = some t) :
    t = s := by
  cases inp with
  | loadWrite addr v => cases (State.loadWrite_of_haltReason_ne_none h addr v).symm.trans hacc
  | run => exact (Option.some.inj hacc).symm.trans (State.runInput_of_haltReason_ne_none h)

end

/-- Settles O58: each field is read off one of the two ports, and after a halt the host changes no field. -/
theorem allStateIsReadable : Obligations.AllStateIsReadable := by
  refine ⟨fun _ _ => State.eq_of_shown_eq, fun s => ⟨rfl, rfl, rfl, rfl, fun _ => s.observe_bytes_getElem?⟩,
    fun s t inp _ hreason hacc => ?_⟩
  cases State.accept_of_haltReason_ne_none hreason hacc
  exact ⟨rfl, rfl⟩

end Sys2Proof.Machine
end

section
/-! PROOFS. The decoder against the encoder (30_encoding.md R55-R61), the opcode bytes without a handler (R62), and the
default opcode bytes (R56). -/

namespace Sys2Proof

open Sys2Proof.Claim

section
variable {c : Config} {op : Byte} {h : Handler} {i : Instr} {bytes rest : List Byte}

/-! ### The branch table -/

theorem Config.of_branchTable_eq_some (hop : c.branchTable op = some h) :
    h ∈ c.handlers ∧ c.opcodeMap.byte h = op :=
  ⟨List.mem_of_find?_eq_some hop, eq_of_beq (List.find?_some (p := (c.opcodeMap.byte · == op)) hop)⟩

/-- An opcode byte has no handler exactly where the map gives it to none of the table's (R61, R62). -/
theorem Config.branchTable_eq_none_iff : c.branchTable op = none ↔ op ∉ c.opcodes := by
  simp [Config.branchTable, Config.opcodes]

theorem Config.opcodes_length (c : Config) : c.opcodes.length = if c.enableAdd then 11 else 10 := by
  rw [Config.opcodes, List.length_map, Config.handlers]
  cases c.enableAdd <;> rfl

/-! ### Decode and encode -/

theorem eq_encode_append_of_decode_eq_ok (hd : decode c bytes = .ok (i, rest)) :
    bytes = encode c i ++ rest ∧ c.Decodes i := by
  cases bytes with
  | nil => cases hd
  | cons op ops =>
    obtain ⟨hop, rfl⟩ := decode_cons_eq_ok hd
    obtain ⟨hmem, rfl⟩ := Config.of_branchTable_eq_some hop
    exact ⟨rfl, hmem⟩

/-! ### Counting bytes -/

/-- Of the 256 bytes, as many lie in a list without repetitions as it is long. -/
theorem length_filter_mem_of_nodup {l : List Byte} (hl : l.Nodup) :
    ((List.range 256).filter (BitVec.ofNat 8 · ∈ l)).length = l.length := by
  have hperm : ((List.range 256).filter (BitVec.ofNat 8 · ∈ l)).Perm (l.map BitVec.toNat) := by
    refine (List.perm_ext_iff_of_nodup (List.nodup_range.filter _)
      (hl.map fun _ _ => BitVec.eq_of_toNat_eq)).2 fun n => ?_
    simp only [List.mem_filter, List.mem_range, List.mem_map, decide_eq_true_eq]
    constructor
    · rintro ⟨hn, hmem⟩
      exact ⟨_, hmem, by rw [BitVec.toNat_ofNat]; omega⟩
    · rintro ⟨b, hb, rfl⟩
      exact ⟨b.isLt, by rwa [BitVec.ofNat_toNat, BitVec.setWidth_eq]⟩
  rw [hperm.length_eq, List.length_map]

theorem Config.length_filter_branchTable_isNone (hc : c.Admissible) :
    ((List.range 256).filter fun n => (c.branchTable (BitVec.ofNat 8 n)).isNone).length = 256 - c.opcodes.length := by
  have hnone (n : Nat) : (c.branchTable (BitVec.ofNat 8 n)).isNone = !decide (BitVec.ofNat 8 n ∈ c.opcodes) := by
    rw [Bool.eq_iff_iff, Option.isNone_iff_eq_none, Config.branchTable_eq_none_iff]
    simp
  have hsum := List.length_eq_length_filter_add (l := List.range 256) (BitVec.ofNat 8 · ∈ c.opcodes)
  rw [List.length_range, length_filter_mem_of_nodup hc.1] at hsum
  simp only [hnone]
  omega

end

/-- Settles O1: an admitted map gives the opcode byte to no other handler, and the handler reads its own operands. -/
theorem decodeInvertsEncode : Obligations.DecodeInvertsEncode :=
  fun _ _ rest hc hi => decode_encode_append hc hi rest

/-- Settles O2: the opcode byte is the map's for the handler, and the operand bytes follow it. -/
theorem decodedBytesAreTheEncoding : Obligations.DecodedBytesAreTheEncoding :=
  fun _ _ _ _ => eq_encode_append_of_decode_eq_ok

/-- Settles O4: the bytes with no handler are those that the map gives to none, all but the 10 or 11 of the table. -/
theorem unassignedOpcodesAreIllegal : Obligations.UnassignedOpcodesAreIllegal := by
  refine fun c hc => ⟨?count, Config.branchTable_eq_none_iff.2 hc.2,
    fun op rest hop => decode_cons_of_none (Config.branchTable_eq_none_iff.2 hop)⟩
  case count =>
    rw [Config.length_filter_branchTable_isNone hc, c.opcodes_length]
    split <;> rfl

/-- Settles O5: the decoder evaluated on each of the table's rows. -/
theorem defaultWordsDecode : Obligations.DefaultWordsDecode :=
  ⟨rfl, rfl, rfl, rfl, rfl, rfl, rfl, rfl, rfl, rfl, rfl, rfl⟩

end Sys2Proof
end

section
/-! PROOFS. All that an instruction can do: the state it completes in, or the error it raises (30_encoding.md R74-R76,
42_stack.md R106). The frames over all instructions (10_state.md R21, R25, R30; 20_memory.md R40) are read off it. -/

namespace Sys2Proof.Machine

open Sys2Proof Sys2Proof.Claim

/-! ### The two ends of an instruction -/

/-- The first of some register-index fields that names no register (R74). -/
abbrev firstAbove (fs : List Byte) : Option Byte := fs.find? fun f => decide (7 < f.toNat)

/-- The state a branch on register `i` leaves: `branchHandler_eq`. -/
def State.branched (s : State) (taken : Bool) (i : RegIdx) : State :=
  s.setPc (if taken then zext9 (s.reg i) else s.pc + 2)

theorem branchHandler_eq (taken : Bool) (i : RegIdx) (s : State) :
    branchHandler taken i s = .ok (s.branched taken i) := by
  cases taken <;> rfl

/-- `t` is the state that instruction `i`, run in `s`, completes in. -/
inductive Runs : Instr → State → State → Prop
  | hlt {s : State} : Runs .hlt s (s.advance 1).halt
  | ldi {r imm : Byte} {s : State} (hr : r.toNat < 8) : Runs (.ldi r imm) s ((s.setReg ⟨r.toNat, hr⟩ imm).advance 3)
  | prn {r : Byte} {s : State} (hr : r.toNat < 8) : Runs (.prn r) s ((s.emit (s.reg ⟨r.toNat, hr⟩)).advance 2)
  | mul {x1 x2 : Byte} {s : State} : Runs (.mul x1 x2) s ((s.setReg 0 (aluMul (s.reg 0) (s.reg 1))).advance 3)
  | cmp {x1 x2 : Byte} {s : State} : Runs (.cmp x1 x2) s ((s.setFlags (aluCmp (s.reg 0) (s.reg 1))).advance 3)
  | push {r : Byte} {s : State} (hr : r.toNat < 8) (hsp : s.sp.toNat ≠ 0) : Runs (.push r) s (s.pushed ⟨r.toNat, hr⟩)
  | pop {r : Byte} {s : State} (hr : r.toNat < 8) (hp : (s.popPointer r).toNat ≠ 255) : Runs (.pop r) s (s.popped r hr)
  | jmp {r : Byte} {s : State} (hr : r.toNat < 8) : Runs (.jmp r) s (s.branched true ⟨r.toNat, hr⟩)
  | jeq {r : Byte} {s : State} (hr : r.toNat < 8) : Runs (.jeq r) s (s.branched s.flags.e ⟨r.toNat, hr⟩)
  | jne {r : Byte} {s : State} (hr : r.toNat < 8) : Runs (.jne r) s (s.branched (!s.flags.e) ⟨r.toNat, hr⟩)
  | add {ra rb : Byte} {s : State} (ha : ra.toNat < 8) (hb : rb.toNat < 8) :
      Runs (.add ra rb) s
        ((s.setReg ⟨ra.toNat, ha⟩ (aluAdd (s.reg ⟨ra.toNat, ha⟩) (s.reg ⟨rb.toNat, hb⟩))).advance 3)

/-- `e` is the error that instruction `i` raises in `s`. -/
inductive Raises : Instr → State → CoreError → Prop
  | register {i : Instr} {s : State} {f : Byte} (hf : firstAbove i.registerFields = some f) : Raises i s (.register f)
  | push {r : Byte} {s : State} (hr : r.toNat < 8) (hsp : s.sp.toNat = 0) : Raises (.push r) s (.stack (-1))
  | pop {r : Byte} {s : State} (hr : r.toNat < 8) (hp : (s.popPointer r).toNat = 255) : Raises (.pop r) s (.stack 256)

section
variable {i : Instr} {s t : State} {r : Byte}

/-! #### What they do is what `exec` does -/

theorem exec_jmp (hr : r.toNat < 8) (s : State) : exec (.jmp r) s = .next (s.branched true ⟨r.toNat, hr⟩) :=
  withRegister_ok hr s _

theorem exec_jeq (hr : r.toNat < 8) (s : State) : exec (.jeq r) s = .next (s.branched s.flags.e ⟨r.toNat, hr⟩) :=
  (withRegister_ok hr s _).trans (by rw [branchHandler_eq, commit_ok])

theorem exec_jne (hr : r.toNat < 8) (s : State) : exec (.jne r) s = .next (s.branched (!s.flags.e) ⟨r.toNat, hr⟩) :=
  (withRegister_ok hr s _).trans (by rw [branchHandler_eq, commit_ok])

theorem Runs.exec_eq (h : Runs i s t) : exec i s = .next t := by
  cases h with
  | hlt => exact exec_hlt s
  | ldi hr => exact exec_ldi hr _ s
  | prn hr => exact exec_prn hr s
  | mul => exact exec_mul _ _ s
  | cmp => exact exec_cmp _ _ s
  | push hr hsp => exact exec_push_completes hr hsp
  | pop hr hp => exact exec_pop_completes hr hp
  | jmp hr => exact exec_jmp hr s
  | jeq hr => exact exec_jeq hr s
  | jne hr => exact exec_jne hr s
  | add ha hb => exact exec_add ha hb s

theorem firstAbove_cons_of_lt (hr : r.toNat < 8) (fs : List Byte) : firstAbove (r :: fs) = firstAbove fs :=
  List.find?_cons_of_neg (by simpa using Nat.le_of_lt_succ hr)

theorem firstAbove_cons_of_not_lt (hr : ¬r.toNat < 8) (fs : List Byte) : firstAbove (r :: fs) = some r :=
  List.find?_cons_of_pos (decide_eq_true (Nat.le_of_not_lt hr))

theorem firstAbove_singleton {f : Byte} (h : firstAbove [r] = some f) : ¬r.toNat < 8 ∧ r = f := by
  by_cases hr : r.toNat < 8
  · rw [firstAbove_cons_of_lt hr] at h; cases h
  · rw [firstAbove_cons_of_not_lt hr] at h; cases h; exact ⟨hr, rfl⟩

theorem firstAbove_spec {fs : List Byte} {f : Byte} (h : firstAbove fs = some f) : f ∈ fs ∧ 7 < f.toNat :=
  ⟨List.mem_of_find?_eq_some h, by simpa using List.find?_some h⟩

theorem exec_of_firstAbove {f : Byte} (hf : firstAbove i.registerFields = some f) :
    exec i s = .next (s.raise (.register f)) := by
  cases i with
  | hlt | mul | cmp => cases hf
  | ldi | prn | push | pop | jmp | jeq | jne =>
    obtain ⟨hr, rfl⟩ := firstAbove_singleton hf
    exact withRegister_error hr s _
  | add ra rb =>
    by_cases ha : ra.toNat < 8
    · obtain ⟨hb, rfl⟩ := firstAbove_singleton ((firstAbove_cons_of_lt ha [rb]).symm.trans hf)
      exact exec_add_error_second ha hb s
    · cases (firstAbove_cons_of_not_lt ha [rb]).symm.trans hf
      exact exec_add_error_first ha rb s

theorem Raises.exec_eq {e : CoreError} (h : Raises i s e) : exec i s = .next (s.raise e) := by
  cases h with
  | register hf => exact exec_of_firstAbove hf
  | push hr hsp => exact exec_push_stack_error hr hsp
  | pop hr hp => exact exec_pop_stack_error hr hp

/-! #### What `exec` does is what they do -/

/-- Instruction `i`, run in `s`, answers the next state `t` in one of the two ways there are. -/
def RunsOrRaises (i : Instr) (s t : State) : Prop := Runs i s t ∨ ∃ e, Raises i s e ∧ t = s.raise e

theorem RunsOrRaises.of_withRegister {k : RegIdx → Except CoreError State} (hi : i.registerFields = [r])
    (hk : ∀ hr : r.toNat < 8, commit s (k ⟨r.toNat, hr⟩) = .next t → RunsOrRaises i s t)
    (h : withRegister r s k = .next t) : RunsOrRaises i s t := by
  by_cases hr : r.toNat < 8
  · exact hk hr (withRegister_ok hr s k ▸ h)
  · rw [withRegister_error hr] at h
    cases h
    exact .inr ⟨_, .register (hi ▸ firstAbove_cons_of_not_lt hr []), rfl⟩

/-- Everything `exec` can do, in one statement: the later proofs go through it and do not unfold the meanings. -/
theorem runsOrRaises (h : exec i s = .next t) : RunsOrRaises i s t := by
  cases i with
  | hlt => cases h; exact .inl .hlt
  | ldi => exact .of_withRegister rfl (fun hr h => by cases h; exact .inl (.ldi hr)) h
  | prn => exact .of_withRegister rfl (fun hr h => by cases h; exact .inl (.prn hr)) h
  | mul => cases h; exact .inl .mul
  | cmp => cases h; exact .inl .cmp
  | push =>
    refine .of_withRegister rfl (fun hr hk => ?_) h
    by_cases hsp : s.sp.toNat = 0
    · rw [pushHandler_stack_error _ hsp] at hk; cases hk; exact .inr ⟨_, .push hr hsp, rfl⟩
    · rw [pushHandler_ok _ hsp] at hk; cases hk; exact .inl (.push hr hsp)
  | pop r =>
    refine .of_withRegister rfl (fun hr hk => ?_) h
    by_cases hp : (s.popPointer r).toNat = 255
    · rw [popHandler_stack_error hr hp] at hk; cases hk; exact .inr ⟨_, .pop hr hp, rfl⟩
    · rw [popHandler_ok hr hp] at hk; cases hk; exact .inl (.pop hr hp)
  | jmp => exact .of_withRegister rfl (fun hr h => by rw [branchHandler_eq] at h; cases h; exact .inl (.jmp hr)) h
  | jeq => exact .of_withRegister rfl (fun hr h => by rw [branchHandler_eq] at h; cases h; exact .inl (.jeq hr)) h
  | jne => exact .of_withRegister rfl (fun hr h => by rw [branchHandler_eq] at h; cases h; exact .inl (.jne hr)) h
  | add ra rb =>
    by_cases ha : ra.toNat < 8
    · by_cases hb : rb.toNat < 8
      · cases (exec_add ha hb s).symm.trans h
        exact .inl (.add ha hb)
      · cases (exec_add_error_second ha hb s).symm.trans h
        exact .inr ⟨_, .register ((firstAbove_cons_of_lt ha [rb]).trans (firstAbove_cons_of_not_lt hb [])), rfl⟩
    · cases (exec_add_error_first ha rb s).symm.trans h
      exact .inr ⟨_, .register (firstAbove_cons_of_not_lt ha [rb]), rfl⟩

/-! ### The dispatcher's fields -/

/-- An instruction that completes leaves the dispatcher's fields alone, or is HLT (R75, R113). -/
theorem Runs.status_cases (h : Runs i s t) :
    (t.status = s.status ∧ t.haltReason = s.haltReason ∧ t.errorInfo = s.errorInfo) ∨
      (i = .hlt ∧ t.status = .halted ∧ t.haltReason = .hlt ∧ t.errorInfo = s.errorInfo) := by
  cases h with
  | hlt => exact .inr ⟨rfl, rfl, rfl, rfl⟩
  | ldi | prn | mul | cmp | push | pop | jmp | jeq | jne | add => exact .inl ⟨rfl, rfl, rfl⟩

theorem Raises.errorState_cases {e : CoreError} (h : Raises i s e) :
    (∃ f, firstAbove i.registerFields = some f ∧ s.raise e = errorState s .boundsError .register f.toNat) ∨
      (∃ r, i = .push r ∧ s.raise e = errorState s .boundsError .stack (-1)) ∨
      (∃ r, i = .pop r ∧ s.raise e = errorState s .boundsError .stack 256) := by
  cases h with
  | register hf => exact .inl ⟨_, hf, rfl⟩
  | push => exact .inr (.inl ⟨_, rfl, rfl⟩)
  | pop => exact .inr (.inr ⟨_, rfl, rfl⟩)

/-- From a Running core the REGISTER error comes of a register-index field alone (R74). -/
theorem firstAbove_of_exec_register_error {v : Int} (hrun : s.status = .running)
    (h : exec i s = .next (errorState s .boundsError .register v)) :
    ∃ f, firstAbove i.registerFields = some f ∧ v = f.toNat := by
  obtain hruns | ⟨e, hraises, he⟩ := runsOrRaises h
  · obtain ⟨hstatus, -, -⟩ | ⟨-, -, hreason, -⟩ := hruns.status_cases
    · cases hstatus.trans hrun
    · cases hreason
  · obtain ⟨f, hf, herr⟩ | ⟨r, -, herr⟩ | ⟨r, -, herr⟩ := hraises.errorState_cases
    · cases congrArg State.errorInfo (he.trans herr)
      exact ⟨f, hf, rfl⟩
    · cases congrArg State.errorInfo (he.trans herr)
    · cases congrArg State.errorInfo (he.trans herr)

theorem exec_ne_register_error {v : Int} (hrun : s.status = .running) (hnone : firstAbove i.registerFields = none) :
    exec i s ≠ .next (errorState s .boundsError .register v) := by
  intro h
  obtain ⟨f, hf, -⟩ := firstAbove_of_exec_register_error hrun h
  cases hnone.symm.trans hf

/-! ### Memory -/

theorem Runs.mem_eq (h : Runs i s t) (hi : ∀ r, i ≠ .push r) : t.mem = s.mem := by
  cases h with
  | push => exact absurd rfl (hi _)
  | hlt | ldi | prn | mul | cmp | pop | jmp | jeq | jne | add => rfl

/-- Every instruction but PUSH keeps the memory, on completion and on an error (20_memory.md R40, R41). -/
theorem exec_mem_eq (h : exec i s = .next t) (hi : ∀ r, i ≠ .push r) : t.mem = s.mem := by
  obtain hruns | ⟨e, -, rfl⟩ := runsOrRaises h
  · exact hruns.mem_eq hi
  · rfl

/-- A PUSH stores at the decremented stack pointer alone, and only where it does not raise. -/
theorem exec_push_read {a : Nat} (h : exec (.push r) s = .next t) (ha : s.sp.toNat ≠ 0 → a ≠ s.sp.toNat - 1) :
    t.mem.read a = s.mem.read a := by
  obtain hruns | ⟨e, -, rfl⟩ := runsOrRaises h
  · cases hruns with
    | push hr hsp => exact State.pushed_read_ne _ (ha hsp)
  · rfl

/-! ### Output -/

/-- What an instruction appends to the output history: PRN its register's value, the others nothing (R30, R96). -/
def emitted (i : Instr) (s : State) : List Byte :=
  match i with
  | .prn r => if r.toNat < 8 then [regAt s r] else []
  | _ => []

theorem exec_out (h : exec i s = .next t) : t.out = s.out ++ emitted i s := by
  by_cases hi : ∃ r, i = .prn r
  · obtain ⟨r, rfl⟩ := hi
    by_cases hr : r.toNat < 8
    · cases (exec_prn hr s).symm.trans h
      simp [emitted, hr, regAt_of_lt hr]
    · cases (withRegister_error hr s _).symm.trans h
      simp [emitted, hr]
  · have hnone : emitted i s = [] := by
      cases i with
      | prn r => exact absurd ⟨r, rfl⟩ hi
      | hlt | ldi | mul | cmp | push | pop | jmp | jeq | jne | add => rfl
    rw [hnone, List.append_nil]
    obtain hruns | ⟨e, -, rfl⟩ := runsOrRaises h
    · cases hruns with
      | prn => exact absurd ⟨_, rfl⟩ hi
      | hlt | ldi | mul | cmp | push | pop | jmp | jeq | jne | add => rfl
    · rfl

/-! ### Registers that are not written -/

variable {k : RegIdx}

theorem ne_fieldReg (hr : r.toNat < 8) (hk : k.val ≠ r.toNat) : (⟨r.toNat, hr⟩ : RegIdx) ≠ k :=
  Fin.ne_of_val_ne hk.symm

theorem State.popped_reg_ne (hr : r.toNat < 8) (hk : k.val ≠ r.toNat) (hsp : k ≠ spReg) :
    (s.popped r hr).reg k = s.reg k := by
  rw [State.popped, State.advance_reg, State.reg_setReg_ne _ _ _ _ hsp.symm,
    State.reg_setReg_ne _ _ _ _ (ne_fieldReg hr hk)]

theorem Runs.reg_of_not_writesReg (h : Runs i s t) (hk : ¬writesReg i k) : t.reg k = s.reg k := by
  cases h with
  | hlt | prn | cmp | jmp | jeq | jne => rfl
  | ldi hr => exact s.reg_setReg_ne _ _ _ (ne_fieldReg hr hk)
  | mul => exact s.reg_setReg_ne _ _ _ (Ne.symm hk)
  | push => exact State.pushed_reg_ne _ hk
  | pop hr =>
    obtain ⟨hkr, hksp⟩ := not_or.1 hk
    exact State.popped_reg_ne hr hkr hksp
  | add ha => exact s.reg_setReg_ne _ _ _ (ne_fieldReg ha hk)

/-! ### Registers that are not read -/

variable (v : Byte)

theorem State.setReg_setReg_same (s : State) (k : RegIdx) (v w : Byte) : (s.setReg k v).setReg k w = s.setReg k w := by
  simp [State.setReg]

theorem State.setReg_comm (s : State) {j k : RegIdx} (h : j ≠ k) (v w : Byte) :
    (s.setReg j v).setReg k w = (s.setReg k w).setReg j v := by
  simp [State.setReg, Vector.set_comm _ _ (Fin.val_ne_of_ne h)]

theorem State.sp_setReg_ne (s : State) (hk : k ≠ spReg) (v : Byte) : (s.setReg k v).sp = s.sp :=
  s.reg_setReg_ne _ _ _ hk

theorem State.pushed_setReg (s : State) {j : RegIdx} (hsp : k ≠ spReg) (hj : k ≠ j) (v : Byte) :
    (s.setReg k v).pushed j = (s.pushed j).setReg k v := by
  have hbelow : (s.setReg k v).spBelow = s.spBelow := by rw [State.spBelow, s.sp_setReg_ne hsp]; rfl
  rw [State.pushed, hbelow, s.reg_setReg_ne _ _ _ hj, s.setReg_comm hsp]
  rfl

theorem State.popPointer_setReg (s : State) (hsp : k ≠ spReg) (r v : Byte) :
    (s.setReg k v).popPointer r = s.popPointer r := by
  rw [State.popPointer, s.sp_setReg_ne hsp, State.setReg_memRead]
  rfl

theorem State.popped_setReg (s : State) (hr : r.toNat < 8) (hsp : k ≠ spReg) (v : Byte) :
    (s.setReg k v).popped r hr =
      if k.val = r.toNat then s.popped r hr else (s.popped r hr).setReg k v := by
  rw [State.popped, s.popPointer_setReg hsp, s.sp_setReg_ne hsp, State.setReg_memRead]
  split
  · next hk =>
    obtain rfl : k = ⟨r.toNat, hr⟩ := Fin.ext hk
    rw [s.setReg_setReg_same]
    rfl
  · next hk =>
    rw [s.setReg_comm (ne_fieldReg hr hk).symm, State.setReg_comm _ hsp]
    rfl

theorem State.branched_setReg (s : State) (taken : Bool) {j : RegIdx} (hj : k ≠ j) (v : Byte) :
    (s.setReg k v).branched taken j = (s.branched taken j).setReg k v := by
  rw [State.branched, s.reg_setReg_ne _ _ _ hj]
  rfl

/-- A completing instruction does the same with another value in a register it does not read: that value stays there,
or the instruction writes the register over. -/
theorem Runs.exec_setReg (h : Runs i s t) (hk : ¬readsReg i k) :
    exec i (s.setReg k v) = .next (t.setReg k v) ∨ writesReg i k ∧ exec i (s.setReg k v) = .next t := by
  cases h with
  | hlt => exact .inl rfl
  | @ldi r _ _ hr =>
    rw [exec_ldi hr]
    by_cases hkr : k.val = r.toNat
    · obtain rfl : k = ⟨r.toNat, hr⟩ := Fin.ext hkr
      exact .inr ⟨hkr, by rw [s.setReg_setReg_same]⟩
    · exact .inl (by rw [s.setReg_comm (ne_fieldReg hr hkr).symm]; rfl)
  | prn hr => exact .inl (by rw [exec_prn hr, s.reg_setReg_ne _ _ _ (ne_fieldReg hr hk).symm]; rfl)
  | mul =>
    obtain ⟨h0, h1⟩ := not_or.1 hk
    exact .inl (by rw [exec_mul, s.reg_setReg_ne _ _ _ h0, s.reg_setReg_ne _ _ _ h1, s.setReg_comm h0]; rfl)
  | cmp =>
    obtain ⟨h0, h1⟩ := not_or.1 hk
    exact .inl (by rw [exec_cmp, s.reg_setReg_ne _ _ _ h0, s.reg_setReg_ne _ _ _ h1]; rfl)
  | push hr hsp =>
    obtain ⟨hksp, hkr⟩ := not_or.1 hk
    rw [exec_push_completes hr (by rwa [s.sp_setReg_ne hksp]),
      s.pushed_setReg hksp (ne_fieldReg hr hkr).symm]
    exact .inl rfl
  | pop hr hp =>
    rw [exec_pop_completes hr (by rwa [s.popPointer_setReg hk]), s.popped_setReg hr hk]
    split
    · next hkr => exact .inr ⟨.inl hkr, rfl⟩
    · exact .inl rfl
  | jmp hr => exact .inl (by rw [exec_jmp hr, s.branched_setReg _ (ne_fieldReg hr hk).symm])
  | jeq hr => exact .inl (by rw [exec_jeq hr, s.branched_setReg _ (ne_fieldReg hr hk).symm]; rfl)
  | jne hr => exact .inl (by rw [exec_jne hr, s.branched_setReg _ (ne_fieldReg hr hk).symm]; rfl)
  | add ha hb =>
    obtain ⟨hka, hkb⟩ := not_or.1 hk
    rw [exec_add ha hb, s.reg_setReg_ne _ _ _ (ne_fieldReg ha hka).symm,
      s.reg_setReg_ne _ _ _ (ne_fieldReg hb hkb).symm, s.setReg_comm (ne_fieldReg ha hka).symm]
    exact .inl rfl

theorem Raises.setReg {e : CoreError} (h : Raises i s e) (hk : ¬readsReg i k) : Raises i (s.setReg k v) e := by
  cases h with
  | register hf => exact .register hf
  | push hr hsp => exact .push hr (by rwa [s.sp_setReg_ne (not_or.1 hk).1])
  | pop hr hp => exact .pop hr (by rwa [s.popPointer_setReg hk])

theorem exec_setReg (h : exec i s = .next t) (hk : ¬readsReg i k) :
    exec i (s.setReg k v) = .next (t.setReg k v) ∨ writesReg i k ∧ exec i (s.setReg k v) = .next t := by
  obtain hruns | ⟨e, hraises, rfl⟩ := runsOrRaises h
  · exact hruns.exec_setReg v hk
  · exact .inl (hraises.setReg v hk).exec_eq

/-! ### Flags that are not read -/

variable {f : Flags}

theorem Runs.exec_setFlags (h : Runs i s t) (hf : f.e = s.flags.e) :
    exec i (s.setFlags f) = .next (t.setFlags f) ∧ t.flags = s.flags ∨ exec i (s.setFlags f) = .next t := by
  cases h with
  | cmp => exact .inr rfl
  | hlt | mul => exact .inl ⟨rfl, rfl⟩
  | ldi hr => exact .inl ⟨exec_ldi hr _ _, rfl⟩
  | prn hr => exact .inl ⟨exec_prn hr _, rfl⟩
  | push hr hsp => exact .inl ⟨exec_push_completes (s := s.setFlags f) hr hsp, rfl⟩
  | pop hr hp => exact .inl ⟨exec_pop_completes (s := s.setFlags f) hr hp, rfl⟩
  | jmp hr => exact .inl ⟨(branchesOn_jmp _).exec_with_flags hf (exec_jmp hr s), rfl⟩
  | jeq hr => exact .inl ⟨(branchesOn_jeq _).exec_with_flags hf (exec_jeq hr s), rfl⟩
  | jne hr => exact .inl ⟨(branchesOn_jne _).exec_with_flags hf (exec_jne hr s), rfl⟩
  | add ha hb => exact .inl ⟨exec_add ha hb _, rfl⟩

theorem Raises.setFlags {e : CoreError} (h : Raises i s e) : Raises i (s.setFlags f) e := by
  cases h with
  | register hf => exact .register hf
  | push hr hsp => exact .push hr hsp
  | pop hr hp => exact .pop hr hp

/-- Only the E flag is read: with other values of L and G an instruction does the same, and keeps them or, if it is CMP,
writes them over (R25, R87). -/
theorem exec_setFlags (h : exec i s = .next t) (hf : f.e = s.flags.e) :
    exec i (s.setFlags f) = .next (t.setFlags f) ∧ t.flags = s.flags ∨ exec i (s.setFlags f) = .next t := by
  obtain hruns | ⟨e, hraises, rfl⟩ := runsOrRaises h
  · exact hruns.exec_setFlags hf
  · exact .inl ⟨hraises.setFlags.exec_eq, rfl⟩

theorem step_setFlags (h : step s = .next t) (hf : f.e = s.flags.e) :
    step (s.setFlags f) = .next (t.setFlags f) ∧ t.flags = s.flags ∨ step (s.setFlags f) = .next t := by
  have hrun := status_of_step_eq_next h
  have hrun' : (s.setFlags f).status = .running := hrun
  have hsame : (s.setFlags f).fetchInstr = s.fetchInstr := rfl
  cases hfetch : s.fetchInstr with
  | error e =>
    cases h.symm.trans (step_fetch_error hrun hfetch)
    exact .inl ⟨step_fetch_error hrun' (hsame.trans hfetch), rfl⟩
  | ok i =>
    rw [step_fetched hrun' (hsame.trans hfetch)]
    exact exec_setFlags ((step_fetched hrun hfetch).symm.trans h) hf

end

/-- Settles O10: the first bad field raises before anything else is looked at, and no meaning raises REGISTER itself. -/
theorem registerFieldsAreChecked : Obligations.RegisterFieldsAreChecked := by
  refine ⟨fun i s f hf => exec_of_firstAbove hf, fun i s v hrun h => firstAbove_of_exec_register_error hrun h,
    fun r b1 b2 s v hrun => ⟨fun hr => ?ldi, ?mul, ?cmp⟩⟩
  case ldi => exact exec_ne_register_error hrun (firstAbove_cons_of_lt hr [])
  case mul => exact exec_ne_register_error hrun rfl
  case cmp => exact exec_ne_register_error hrun rfl

/-- Settles O46: the fields of an instruction that completes, and then those of the three errors. -/
theorem statusFrame : Obligations.StatusFrame := by
  intro i s t h
  obtain hruns | ⟨e, hraises, rfl⟩ := runsOrRaises h
  · obtain hkept | hhlt := hruns.status_cases
    · exact .inl hkept
    · exact .inr (.inl hhlt)
  · refine .inr (.inr (hraises.errorState_cases.imp_left ?_))
    rintro ⟨f, hf, herr⟩
    obtain ⟨hmem, habove⟩ := firstAbove_spec hf
    exact ⟨f, hmem, habove, herr⟩

/-- Settles O44: a PUSH that moves the pointer stores there, one that cannot move it raises. -/
theorem onlyPushWritesMemory : Obligations.OnlyPushWritesMemory := by
  refine ⟨fun i s t h hi a => by rw [exec_mem_eq h hi],
    fun r s t sp1 h hmoved a ha => exec_push_read h fun hsp => ?moved,
    fun r s t e h herr a => exec_push_read h fun hsp => ?error⟩
  case moved =>
    cases (movedSp_down hsp).symm.trans hmoved
    rwa [← s.spBelow_toNat]
  case error => cases (movedSp_down hsp).symm.trans herr

/-- Settles O45: what was appended is what stands after the old history. -/
theorem onlyPrnEmits : Obligations.OnlyPrnEmits := by
  intro i s t h
  have hout := exec_out h
  have hsince : outputSince s t = emitted i s := by rw [outputSince, hout, List.drop_left]
  exact ⟨hsince, hsince ▸ hout⟩

/-- Settles O40: the register writes of a completing instruction, and an error keeps every register. -/
theorem registersNotWrittenAreKept : Obligations.RegistersNotWrittenAreKept := by
  intro i s t k h hk
  obtain hruns | ⟨e, -, rfl⟩ := runsOrRaises h
  · exact hruns.reg_of_not_writesReg hk
  · rfl

/-- Settles O41: the other value stays in its register, or is written over with what is written anyway. -/
theorem registersNotReadDoNotMatter : Obligations.RegistersNotReadDoNotMatter := by
  intro i s t k v hk h
  obtain hkept | ⟨hwrites, hover⟩ := exec_setReg v h hk
  · exact ⟨t.setReg k v, hkept, rfl, fun j hj => t.reg_setReg_ne _ _ _ hj.symm, .inl (t.reg_setReg_same k v)⟩
  · exact ⟨t, hover, rfl, fun _ _ => rfl, .inr ⟨hwrites, rfl⟩⟩

/-- Settles O43: other values of L and G stay, or are written over by a CMP. -/
theorem lessAndGreaterAreNeverRead : Obligations.LessAndGreaterAreNeverRead := by
  intro s t l g h
  obtain ⟨hkept, hflags⟩ | hover := step_setFlags (f := { s.flags with l := l, g := g }) h rfl
  · exact ⟨t.setFlags _, hkept, rfl, by rw [hflags]; rfl⟩
  · exact ⟨t, hover, rfl, rfl⟩

end Sys2Proof.Machine
end

section
/-! PROOFS. All that a step can do: run what it fetched, or raise an error whose record R29 lists (30_encoding.md
R70-R79). The invariant, precise errors and the halted state follow (10_state.md R24-R29; 60_exceptions.md R124-R129). -/

namespace Sys2Proof

theorem eq_nil_of_decode_eq_noOpcodeByte {c : Config} {bytes : List Byte}
    (hd : decode c bytes = .error .noOpcodeByte) : bytes = [] := by
  cases bytes with
  | nil => rfl
  | cons op ops =>
    cases hop : c.branchTable op with
    | none => cases (decode_cons_of_none hop).symm.trans hd
    | some h =>
      rw [decode_cons_of_some hop] at hd
      by_cases hlen : Claim.tableLength h ≤ ops.length + 1
      · obtain ⟨r, hr⟩ := exists_decodeOperands_eq_ok hlen
        cases hr.symm.trans hd
      · cases (decodeOperands_of_length_lt (Nat.lt_of_not_le hlen)).symm.trans hd

end Sys2Proof

namespace Sys2Proof.Machine

open Sys2Proof Sys2Proof.Claim

section
variable {i : Instr} {s t : State} {e : CoreError}

/-! ### What a fetch answers -/

/-- The errors a step can raise, with the values R29 gives them; the pc, and so FETCH's address, is at most 256 in every
state that meets the invariant (R24, R71, R73). -/
def Raisable (s : State) : CoreError → Prop
  | .unknownInstruction _ => True
  | .fetch addr => addr = max 256 s.pc.toNat
  | .register f => 7 < f.toNat
  | .stack sp => sp = -1 ∨ sp = 256
  | .unsupportedAluOperation _ => False

theorem State.fits_of_fetchInstr_eq_ok (h : s.fetchInstr = .ok i) : s.pc.toNat + tableLength i.handler ≤ 256 := by
  unfold State.fetchInstr at h
  split at h
  case h_1 rest hd =>
    cases h
    have hlen := s.fetchBytes_length
    cases hbytes : s.fetchBytes with
    | nil => rw [hbytes] at hd; cases hd
    | cons op ops =>
      rw [hbytes] at hd hlen
      rw [decode_cons_length hd, i.tableLength_handler] at hlen
      rw [i.tableLength_handler]
      omega
  all_goals cases h

theorem State.raisable_of_fetchInstr_eq_error (h : s.fetchInstr = .error e) : Raisable s e := by
  have hlen := s.fetchBytes_length
  unfold State.fetchInstr at h
  split at h
  case h_1 => cases h
  case h_2 hd =>
    cases h
    rw [eq_nil_of_decode_eq_noOpcodeByte hd, List.length_nil] at hlen
    show s.pc.toNat = max 256 s.pc.toNat
    omega
  case h_3 => cases h; trivial
  case h_4 hd =>
    cases h
    have hne : s.fetchBytes.length ≠ 0 := fun h0 => by
      rw [List.length_eq_zero_iff.1 h0] at hd
      cases hd
    show 256 = max 256 s.pc.toNat
    omega

/-! ### What a step does -/

theorem Raises.raisable (h : Raises i s e) : Raisable s e := by
  cases h with
  | register hf => exact (firstAbove_spec hf).2
  | push => exact .inl rfl
  | pop => exact .inr rfl

/-- Everything a step can do: it completes an instruction that fits in memory, or raises. -/
theorem step_cases (h : step s = .next t) :
    (∃ i, s.pc.toNat + tableLength i.handler ≤ 256 ∧ Runs i s t) ∨ ∃ e, Raisable s e ∧ t = s.raise e := by
  have hrun := status_of_step_eq_next h
  cases hfetch : s.fetchInstr with
  | error e =>
    cases (step_fetch_error hrun hfetch).symm.trans h
    exact .inr ⟨e, State.raisable_of_fetchInstr_eq_error hfetch, rfl⟩
  | ok i =>
    obtain hruns | ⟨e, hraises, rfl⟩ := runsOrRaises ((step_fetched hrun hfetch).symm.trans h)
    · exact .inl ⟨i, State.fits_of_fetchInstr_eq_ok hfetch, hruns⟩
    · exact .inr ⟨e, hraises.raisable, rfl⟩

theorem Raisable.reason_ne_alu (h : Raisable s e) : e.reason ≠ .unsupportedAluOperation := by
  cases e with
  | unsupportedAluOperation => exact h.elim
  | unknownInstruction | fetch | register | stack => exact nofun

theorem HaltReason.ne_none_of_isError {r : HaltReason} (h : r.IsError) : r ≠ .none := by
  rintro rfl
  simp [HaltReason.IsError] at h

/-- How a completed instruction leaves the halt reason. -/
theorem Runs.haltReason_cases (h : Runs i s t) : t.haltReason = s.haltReason ∨ t.haltReason = .hlt := by
  obtain ⟨-, hreason, -⟩ | ⟨-, -, hreason, -⟩ := h.status_cases
  · exact .inl hreason
  · exact .inr hreason

/-- A core that had no halt reason gets an error's from a raise alone. -/
theorem step_eq_raise_of_isError (hs : s.haltReason = .none) (h : step s = .next t) (ht : t.haltReason.IsError) :
    ∃ e, t = s.raise e := by
  obtain ⟨i, -, hruns⟩ | ⟨e, -, rfl⟩ := step_cases h
  · obtain hreason | hreason := hruns.haltReason_cases
    · rw [hreason, hs] at ht; exact absurd rfl (HaltReason.ne_none_of_isError ht)
    · rw [hreason] at ht; simp [HaltReason.IsError] at ht
  · exact ⟨e, rfl⟩

/-! ### The invariant -/

/-- At most one flag is true (R35, R83). -/
abbrev Flags.Exclusive (f : Flags) : Prop :=
  ¬(f.e = true ∧ f.l = true) ∧ ¬(f.e = true ∧ f.g = true) ∧ ¬(f.l = true ∧ f.g = true)

theorem aluCmp_exclusive (a b : Byte) : (aluCmp a b).Exclusive := by
  simp only [Flags.Exclusive, aluCmp, decide_eq_true_eq]
  omega

theorem State.Inv.errorInfo_eq_none (hs : s.Inv) (h : s.haltReason = .none) : s.errorInfo = none := by
  rw [← Option.not_isSome_iff_eq_none, hs.infoIffError]
  exact fun herr => HaltReason.ne_none_of_isError herr h

/-- The invariant of a core without an error record. -/
theorem State.Inv.of_errorInfo_eq_none (hc : s.cfg.Admissible) (hm : Memory.wf s.mem) (hp : s.pc.toNat ≤ 256)
    (hf : s.flags.Exclusive) (hr : s.haltReason = .none ∨ s.status = .halted ∧ s.haltReason = .hlt)
    (he : s.errorInfo = none) : s.Inv where
  admissible := hc
  memWf := hm
  pcRange := hp
  flagsExclusive := hf
  runningReason hrun := hr.elim id fun hhlt => nomatch hrun.symm.trans hhlt.1
  noAluError halu := by obtain hr | ⟨-, hr⟩ := hr <;> cases hr.symm.trans halu
  infoIffError := by obtain hr | ⟨-, hr⟩ := hr <;> simp [hr, he, HaltReason.IsError]
  infoFits := by simp [he]

theorem CoreError.kind_reason (e : CoreError) : e.kind.reason = e.reason := by
  cases e <;> rfl

theorem Raisable.valueFits (h : Raisable s e) (hpc : s.pc.toNat ≤ 256) :
    ErrorInfo.ValueFits { pc := s.pc, kind := e.kind, value := e.value } := by
  cases e with
  | unknownInstruction op => exact ⟨Int.natCast_nonneg _, Int.ofNat_le.2 (Nat.le_of_lt_succ op.isLt)⟩
  | fetch addr => exact congrArg Int.ofNat (h.trans (Nat.max_eq_left hpc))
  | register f => exact ⟨Int.ofNat_lt.2 h, Int.ofNat_le.2 (Nat.le_of_lt_succ f.isLt)⟩
  | stack sp => exact h
  | unsupportedAluOperation => exact h.elim

theorem State.Inv.raise (hs : s.Inv) (he : Raisable s e) : (s.raise e).Inv where
  admissible := hs.admissible
  memWf := hs.memWf
  pcRange := hs.pcRange
  flagsExclusive := hs.flagsExclusive
  runningReason := nofun
  noAluError := he.reason_ne_alu
  infoIffError := iff_of_true rfl e.reason_isError
  infoFits := by
    rintro _ ⟨⟩
    exact ⟨rfl, e.kind_reason, he.valueFits hs.pcRange⟩

theorem Runs.mem_wf (h : Runs i s t) (hm : Memory.wf s.mem) : Memory.wf t.mem := by
  cases h with
  | push => exact State.pushed_mem_wf _ hm
  | hlt | ldi | prn | mul | cmp | pop | jmp | jeq | jne | add => exact hm

theorem Runs.flags_exclusive (h : Runs i s t) (hf : s.flags.Exclusive) : t.flags.Exclusive := by
  cases h with
  | cmp => exact aluCmp_exclusive _ _
  | hlt | ldi | prn | mul | push | pop | jmp | jeq | jne | add => exact hf

theorem Runs.pc_le (h : Runs i s t) (hfits : s.pc.toNat + tableLength i.handler ≤ 256) : t.pc.toNat ≤ 256 := by
  obtain hc | ⟨e, rfl⟩ := exec_eq_next h.exec_eq
  · exact hc.pc_toNat hfits ▸ pcAfter_le hfits
  · exact Nat.le_of_add_right_le hfits

theorem Runs.cfg_eq (h : Runs i s t) : t.cfg = s.cfg := by
  cases h <;> rfl

/-- A completed instruction of a Running core keeps the invariant: there is no error record, before it or after it. -/
theorem Runs.inv (h : Runs i s t) (hs : s.Inv) (hrun : s.status = .running)
    (hfits : s.pc.toNat + tableLength i.handler ≤ 256) : t.Inv := by
  have hreason := hs.runningReason hrun
  have hinfo := hs.errorInfo_eq_none hreason
  refine .of_errorInfo_eq_none (h.cfg_eq ▸ hs.admissible) (h.mem_wf hs.memWf) (h.pc_le hfits)
    (h.flags_exclusive hs.flagsExclusive) ?reason ?info
  case reason =>
    obtain ⟨-, hkept, -⟩ | ⟨-, hhalt, hhlt, -⟩ := h.status_cases
    · exact .inl (hkept.trans hreason)
    · exact .inr ⟨hhalt, hhlt⟩
  case info =>
    obtain ⟨-, -, hkept⟩ | ⟨-, -, -, hkept⟩ := h.status_cases
    · exact hkept.trans hinfo
    · exact hkept.trans hinfo

theorem State.Inv.step (hs : s.Inv) (h : step s = .next t) : t.Inv := by
  obtain ⟨i, hfits, hruns⟩ | ⟨e, he, rfl⟩ := step_cases h
  · exact hruns.inv hs (status_of_step_eq_next h) hfits
  · exact hs.raise he

/-! ### What a host input does -/

/-- Everything a host input can do (R5, R6): a store or the start of a core that has not been started, or nothing. -/
theorem State.accept_cases {inp : HostInput} (h : s.accept inp = some t) :
    t = s ∨ s.NotStarted ∧ (t = { s with status := .running } ∨ ∃ a v, t = s.memWrite a v) := by
  cases inp with
  | loadWrite addr v =>
    obtain ⟨⟨hns, -⟩, ht⟩ := Option.ite_some_none_eq_some.1 h
    exact .inr ⟨hns, .inr ⟨_, v, ht.symm⟩⟩
  | run =>
    cases h
    unfold State.runInput
    split
    · next hns => exact .inr ⟨hns, .inl rfl⟩
    · exact .inl rfl

theorem State.accept_haltReason {inp : HostInput} (h : s.accept inp = some t) : t.haltReason = s.haltReason := by
  obtain rfl | ⟨-, rfl | ⟨a, v, rfl⟩⟩ := State.accept_cases h
  · rfl
  · rfl
  · rfl

theorem State.Inv.accept {inp : HostInput} (hs : s.Inv) (h : s.accept inp = some t) : t.Inv := by
  obtain rfl | ⟨⟨-, hreason⟩, ht⟩ := State.accept_cases h
  · exact hs
  · have hinfo := hs.errorInfo_eq_none hreason
    obtain rfl | ⟨a, v, rfl⟩ := ht
    · exact .of_errorInfo_eq_none hs.admissible hs.memWf hs.pcRange hs.flagsExclusive (.inl hreason) hinfo
    · exact .of_errorInfo_eq_none hs.admissible (State.memWrite_wf hs.memWf a v) hs.pcRange hs.flagsExclusive
        (.inl hreason) hinfo

theorem runSteps_of_step_fault {f : Fault} (h : step s = .fault f) (n : Nat) : runSteps n s = s := by
  cases n with
  | zero => rfl
  | succ n => simp only [runSteps, h]

theorem runSteps_of_step_self (h : step s = .next s) (n : Nat) : runSteps n s = s := by
  induction n with
  | zero => rfl
  | succ n ih => simpa only [runSteps, h] using ih

theorem State.fetchInstr_past_memory (hpc : 255 < s.pc.toNat) : s.fetchInstr = .error (.fetch s.pc.toNat) := by
  have hnil : s.fetchBytes = [] := List.length_eq_zero_iff.1 (by rw [s.fetchBytes_length]; omega)
  simp only [State.fetchInstr, hnil, decode]

end

/-- Settles O14: a completed instruction keeps each clause, and a raise writes a record that fits. -/
theorem stepKeepsInvariant : Obligations.StepKeepsInvariant :=
  fun _ _ hs h => hs.step h

/-- Settles O15: reset has no error record. -/
theorem resetMeetsInvariant : Obligations.ResetMeetsInvariant :=
  .of_errorInfo_eq_none (by decide) State.reset_mem_wf (by decide) (by decide) (.inl rfl) rfl

/-- Settles O16: a host input acts before the start alone, where there is no error record. -/
theorem hostInputsKeepInvariant : Obligations.HostInputsKeepInvariant :=
  fun _ _ _ hs h => hs.accept h

/-- Settles O18: an error comes of a raise alone, which writes the dispatcher's three fields. -/
theorem errorsArePrecise : Obligations.ErrorsArePrecise := by
  intro s t hs h ht
  obtain ⟨e, rfl⟩ := step_eq_raise_of_isError hs h ht
  exact ⟨rfl, rfl, rfl, rfl, rfl, rfl, rfl, _, rfl, rfl, e.kind_reason⟩

/-- Settles O19: a Running core has no halt reason yet, and only HLT and a raise give it one. -/
theorem haltReasonSetOnce : Obligations.HaltReasonSetOnce := by
  refine ⟨fun s t hs h => ?step, fun s t inp h => State.accept_haltReason h⟩
  case step =>
    have hrun := status_of_step_eq_next h
    have hreason := hs.runningReason hrun
    refine ⟨hreason, ?_⟩
    obtain ⟨i, -, hruns⟩ | ⟨e, -, rfl⟩ := step_cases h
    · obtain ⟨hstatus, hkept, -⟩ | ⟨-, hhalt, hhlt, -⟩ := hruns.status_cases
      · exact .inl ⟨hstatus.trans hrun, hkept.trans hreason⟩
      · exact .inr ⟨hhalt, by rw [hhlt]; exact nofun⟩
    · exact .inr ⟨rfl, HaltReason.ne_none_of_isError e.reason_isError⟩

/-- Settles O20: no instruction passes the ALU a foreign name, and the fetch raises no ALU error. -/
theorem aluErrorUnreachable : Obligations.AluErrorUnreachable := by
  refine ⟨fun _ _ _ => rfl, fun s t hs h => ?_⟩
  obtain ⟨i, -, hruns⟩ | ⟨e, he, rfl⟩ := step_cases h
  · obtain hreason | hreason := hruns.haltReason_cases
    · rwa [hreason]
    · rw [hreason]; exact nofun
  · exact he.reason_ne_alu

/-- Settles O21: neither a step nor a host input acts on a core that has halted. -/
theorem haltIsTerminal : Obligations.HaltIsTerminal :=
  fun _ hhalt hreason => ⟨step_halted hhalt, runSteps_of_step_fault (step_halted hhalt),
    fun _ _ h => State.accept_of_haltReason_ne_none hreason h⟩

/-- Settles O38, by induction on the number of steps, each of which leaves the state as it is. -/
theorem jumpToItselfDiverges : Obligations.JumpToItselfDiverges := by
  intro r s hr hstands hself
  have hsteps := runSteps_of_step_self ((step_of_stands hstands).trans (exec_jmp_self hr hself))
  exact ⟨fun n => by rw [hsteps n]; exact hstands.running, hsteps⟩

/-- Settles O9: the bytes that lie in memory are too few for the opcode's handler. -/
theorem extentCheckRaises : Obligations.ExtentCheckRaises :=
  fun _ _ hat hlen => step_extent_error hat hlen

/-- Settles O7: the fetch at 256 sees no byte. -/
theorem fetchPastMemoryRaises : Obligations.FetchPastMemoryRaises := by
  intro s hrun hlo hhi
  have hpc : s.pc.toNat = 256 := by omega
  exact step_fetch_error hrun (hpc ▸ State.fetchInstr_past_memory hlo)

/-- Settles O11: the fetch is the decoder on the bytes at the pc. -/
theorem stepRunsDecodedInstruction : Obligations.StepRunsDecodedInstruction :=
  fun _ _ _ hrun hd => step_fetched hrun (State.fetchInstr_of_decode hd)

/-- Settles O12: what stands at the pc is what the fetch decodes. -/
theorem stepRunsEncodedInstruction : Obligations.StepRunsEncodedInstruction :=
  fun _ _ hstands => step_of_stands hstands

/-- Settles O54: an admitted map gives the byte 0 to no handler. -/
theorem zeroByteIsUnknown : Obligations.ZeroByteIsUnknown := by
  intro s hs hrun hpc hzero
  have hnone : s.cfg.branchTable (s.mem.read s.pc.toNat) = none :=
    hzero ▸ Config.branchTable_eq_none_iff.2 hs.admissible.2
  have hfetch := State.fetchInstr_of_branchTable_none hpc hnone
  rw [hzero] at hfetch
  exact step_fetch_error hrun hfetch

end Sys2Proof.Machine
end

section
/-! PROOFS. The ALU as integers (40_alu.md R80-R83), PUSH and POP one after the other (42_stack.md R103-R105), and a fetch
of a pushed byte (20_memory.md R52). -/

namespace Sys2Proof.Machine

open Sys2Proof Sys2Proof.Claim

/-! ### The ALU -/

section
variable (a b : Byte)

theorem aluAdd_toNat : (aluAdd a b).toNat = (a.toNat + b.toNat) % 256 := by
  rw [aluAdd, BitVec.toNat_ofNat, Nat.mod_mod]

theorem aluMul_toNat : (aluMul a b).toNat = (a.toNat * b.toNat) % 256 := by
  rw [aluMul, BitVec.toNat_ofNat, Nat.mod_mod]

/-- Exactly one flag of a comparison is true (R83). -/
theorem aluCmp_cases :
    aluCmp a b = ⟨true, false, false⟩ ∨ aluCmp a b = ⟨false, true, false⟩ ∨ aluCmp a b = ⟨false, false, true⟩ := by
  simp only [aluCmp, Flags.mk.injEq, decide_eq_true_eq, decide_eq_false_iff_not]
  omega

end

/-- Settles O39: the two values modulo 256, and the flags of the comparison one by one. -/
theorem aluFunctions : Obligations.AluFunctions := by
  refine fun a b => ⟨⟨aluAdd a b, rfl, aluAdd_toNat a b⟩, ⟨aluMul a b, rfl, aluMul_toNat a b⟩,
    aluCmp a b, rfl, ?e, ?l, ?g, ?one⟩
  case e => rw [aluCmp_eq, decide_eq_true_eq]
  case l => rw [aluCmp_eq, decide_eq_true_eq]
  case g => rw [aluCmp_eq, decide_eq_true_eq]
  case one =>
    obtain h | h | h := aluCmp_cases a b <;> simp [h]

/-! ### PUSH, then POP -/

section
variable {s t : State} {r : Byte}

theorem State.eq_x_of_reg_eq (h : ∀ j, t.reg j = s.reg j) : t.x = s.x :=
  Vector.ext fun j hj => h ⟨j, hj⟩

/-- A PUSH of R7 stores the decremented pointer (R104). -/
theorem pushedByte_spReg (h7 : r.toNat = 7) : pushedByte s r (s.sp.toNat - 1) = s.spBelow := if_pos h7

theorem State.pushed_memRead_sp (hr : r.toNat < 8) (hm : Memory.wf s.mem) :
    (s.pushed ⟨r.toNat, hr⟩).memRead (s.pushed ⟨r.toNat, hr⟩).sp = pushedByte s r (s.sp.toNat - 1) := by
  rw [State.pushed_sp, State.memRead, s.spBelow_toNat, State.pushed_read_pushedByte hr hm]

/-- After a PUSH the POP of the same register increments the decremented pointer; for R7 it is the popped byte (R104,
R105). -/
theorem State.pushed_popPointer_toNat (hr : r.toNat < 8) (hm : Memory.wf s.mem) :
    ((s.pushed ⟨r.toNat, hr⟩).popPointer r).toNat = s.sp.toNat - 1 := by
  rw [State.popPointer, State.pushed_memRead_sp hr hm, State.pushed_sp]
  split
  · next h7 => rw [pushedByte_spReg h7, s.spBelow_toNat]
  · exact s.spBelow_toNat

theorem State.popped_reg (hr : r.toNat < 8) (j : RegIdx) :
    (s.popped r hr).reg j =
      if j = spReg then BitVec.ofNat 8 ((s.popPointer r).toNat + 1)
      else if j.val = r.toNat then s.memRead s.sp else s.reg j := by
  simp only [State.popped, State.advance_reg, State.reg_setReg, eq_comm (b := j), Fin.ext_iff]

/-- PUSH then POP of one register gives every register back (R103). -/
theorem State.popped_pushed_reg (hr : r.toNat < 8) (hm : Memory.wf s.mem) (hsp : s.sp.toNat ≠ 0) (j : RegIdx) :
    ((s.pushed ⟨r.toNat, hr⟩).popped r hr).reg j = s.reg j := by
  rw [State.popped_reg, State.pushed_memRead_sp hr hm, State.pushed_popPointer_toNat hr hm]
  split
  · next hj =>
    rw [Nat.sub_add_cancel (Nat.pos_of_ne_zero hsp), BitVec.ofNat_toNat, BitVec.setWidth_eq, hj]
    rfl
  · next hj =>
    have hj7 : j.val ≠ 7 := Fin.val_ne_of_ne hj
    split
    · next hjr =>
      rw [pushedByte, if_neg (hjr ▸ hj7), regAt_of_lt hr]
      exact congrArg s.reg (Fin.ext hjr.symm)
    · exact State.pushed_reg_ne _ hj

theorem execAll_push_pop (hr : r.toNat < 8) (hrun : s.status = .running) (hm : Memory.wf s.mem) (hsp : s.sp.toNat ≠ 0) :
    execAll [.push r, .pop r] s = .next ((s.pushed ⟨r.toNat, hr⟩).popped r hr) := by
  have hlt := s.sp.isLt
  have hp : ((s.pushed ⟨r.toNat, hr⟩).popPointer r).toNat ≠ 255 := by
    rw [State.pushed_popPointer_toNat hr hm]; omega
  rw [execAll_cons_running (exec_push_completes hr hsp) hrun, execAll_cons_running (exec_pop_completes hr hp) hrun]
  rfl

/-- Fetch reads the memory as the last store left it (R52). -/
theorem State.pushed_fetchBytes {k : Nat} (hr : r.toNat < 8) (hm : Memory.wf s.mem)
    (hpc : (s.pushed ⟨r.toNat, hr⟩).pc.toNat + k = s.sp.toNat - 1) (hk : k < 3) :
    (s.pushed ⟨r.toNat, hr⟩).fetchBytes[k]? = some (pushedByte s r (s.sp.toNat - 1)) := by
  have hlt := s.sp.isLt
  rw [State.fetchBytes_getElem? hk (by omega), hpc, State.pushed_read_pushedByte hr hm]

end

/-- Settles O32: the popped state register by register. -/
theorem pushPopRoundTrip : Obligations.PushPopRoundTrip := by
  intro r s hr hrun hm hsp
  exact ⟨_, execAll_push_pop hr hrun hm hsp, State.eq_x_of_reg_eq (State.popped_pushed_reg hr hm hsp), rfl, rfl, hrun,
    State.pushed_read_pushedByte hr hm⟩

/-- Settles O28: the cell that PUSH 7 writes holds its own address. -/
theorem pushOfStackPointer : Obligations.PushOfStackPointer := by
  intro s hm hsp
  have hr : (7 : Byte).toNat < 8 := by decide
  refine ⟨s.pushed ⟨_, hr⟩, exec_push_completes hr hsp, ?sp, ?stored⟩
  case sp => rw [State.pushed_sp, s.spBelow_toNat]
  case stored => rw [State.pushed_memRead_sp hr hm, pushedByte_spReg rfl, s.spBelow_toNat]

/-- Settles O30: for R7 the pointer that POP increments is the popped byte. -/
theorem popOfStackPointer : Obligations.PopOfStackPointer := by
  have hr : (7 : Byte).toNat < 8 := by decide
  refine ⟨fun s hle => ?_, fun s htop => exec_pop_stack_error hr htop⟩
  have hp : (s.popPointer 7).toNat ≠ 255 := Nat.ne_of_lt (Nat.lt_succ_of_le hle)
  exact ⟨s.popped 7 hr, exec_pop_completes hr hp, State.popped_sp_toNat hr hp, rfl⟩

/-- Settles O49: the byte the next fetch sees is the one the PUSH stored. -/
theorem fetchSeesPushedByte : Obligations.FetchSeesPushedByte := by
  intro r s t k hr hm hsp h hpc hk
  cases (exec_push_completes hr hsp).symm.trans h
  exact State.pushed_fetchBytes hr hm hpc hk

end Sys2Proof.Machine
end

section
/-! PROOFS. Memory after any sequence of writes (20_memory.md R49), the load port, Run and boot (00_scope.md R5, R6;
70_reset_and_hazards.md R142-R144), and the status port (10_state.md R28). -/

namespace Sys2Proof.Machine

open Sys2Proof Sys2Proof.Claim

/-! ### Sequences of writes -/

section
variable {m : Memory} {a b : Nat}

theorem Memory.pairwise_foldl_write (hm : m.Pairwise fun c d => c.1 < d.1) (ws : List (Nat × Byte)) :
    (ws.foldl (fun m w => m.write w.1 w.2) m).Pairwise fun c d => c.1 < d.1 := by
  induction ws generalizing m with
  | nil => exact hm
  | cons w ws ih => exact ih (pairwise_write hm w.1 w.2)

/-- R49, by induction from the last write backwards. -/
theorem Memory.read_foldl_write (hm : m.Pairwise fun c d => c.1 < d.1) (ws : List (Nat × Byte)) (a : Nat) :
    (ws.foldl (fun m w => m.write w.1 w.2) m).read a =
      ((ws.reverse.find? fun w => w.1 == a).map Prod.snd).getD (m.read a) := by
  induction ws using List.reverseRecOn with
  | nil => rfl
  | append_singleton ws w ih =>
    rw [List.foldl_append, List.reverse_append, List.reverse_singleton, List.singleton_append, List.foldl_cons,
      List.foldl_nil]
    by_cases hw : w.1 = a
    · subst hw
      rw [List.find?_cons_of_pos (by simp)]
      exact read_write_same (pairwise_foldl_write hm ws) _ _
    · rw [List.find?_cons_of_neg (by simpa using hw), ← ih]
      exact read_write_ne _ _ (Ne.symm hw)

/-- Bytes stored at increasing addresses inside the address space are read back at theirs, and nothing else changes. -/
theorem Memory.read_writeList (hm : m.Pairwise fun c d => c.1 < d.1) {vs : List Byte} (hfits : a + vs.length ≤ memSize)
    (b : Nat) : (m.writeList a vs).read b = if a ≤ b then vs.getD (b - a) (m.read b) else m.read b := by
  induction vs generalizing m a with
  | nil => simp [Memory.writeList]
  | cons v vs ih =>
    rw [List.length_cons] at hfits
    rw [Memory.writeList, if_pos (by omega), ih (pairwise_write hm a v) (by omega)]
    obtain hlt | rfl | hgt := Nat.lt_trichotomy b a
    · rw [if_neg (by omega), if_neg (by omega), read_write_ne m v (Nat.ne_of_lt hlt)]
    · rw [if_neg (by omega), if_pos (Nat.le_refl b), read_write_same hm, Nat.sub_self, List.getD_cons_zero]
    · rw [if_pos (Nat.succ_le_of_lt hgt), if_pos (Nat.le_of_lt hgt), read_write_ne m v (Nat.ne_of_gt hgt),
        show b - a = (b - (a + 1)) + 1 by omega, List.getD_cons_succ]

end

/-! ### The load port and Run -/

section
variable {s t : State} {addr : Nat} {v : Byte}

theorem State.loadWrite_isSome : (s.loadWrite addr v).isSome = true ↔ s.NotStarted ∧ addr < memSize := by
  rw [State.loadWrite, Option.isSome_ite]

theorem State.loadWrite_eq_some_iff :
    s.loadWrite addr v = some t ↔ (s.NotStarted ∧ addr < memSize) ∧ t = { s with mem := s.mem.write addr v } := by
  unfold State.loadWrite
  rw [Option.ite_some_none_eq_some, and_congr_right_iff]
  rintro ⟨-, haddr⟩
  have hmod : (BitVec.ofNat 8 addr).toNat = addr := Nat.mod_eq_of_lt haddr
  rw [State.memWrite, hmod, eq_comm]

theorem State.runInput_of_not_notStarted (h : ¬s.NotStarted) : s.runInput = s := if_neg h

/-- Run leaves no core that has not been started, so that a second one finds nothing to do (R6). -/
theorem State.not_notStarted_runInput (s : State) : ¬s.runInput.NotStarted := by
  by_cases h : s.NotStarted
  · rw [State.runInput, if_pos h]
    exact nofun
  · rwa [State.runInput_of_not_notStarted h]

/-! ### Boot -/

/-- The loader stores the image byte by byte, through a port that stays open (R142). -/
theorem State.loadFrom_eq {image : List Byte} (hs : s.NotStarted) (hfits : addr + image.length ≤ memSize) :
    s.loadFrom addr image = some { s with mem := s.mem.writeList addr image } := by
  induction image generalizing s addr with
  | nil => rfl
  | cons v vs ih =>
    rw [List.length_cons] at hfits
    have haddr : addr < memSize := by omega
    rw [State.loadFrom, State.loadWrite_eq_some_iff.2 ⟨⟨hs, haddr⟩, rfl⟩, Option.bind_some,
      ih (s := { s with mem := s.mem.write addr v }) hs (by omega), Memory.writeList, if_pos haddr]

theorem boot_eq (c : Config) {image : List Byte} (hlen : image.length ≤ imageMax) :
    boot c image = { State.reset with cfg := c, status := .running, mem := State.reset.mem.writeList 0 image } := by
  have hload := State.loadFrom_eq (s := { State.reset with cfg := c }) (addr := 0) (image := image) ⟨rfl, rfl⟩
    ((Nat.zero_add _).trans_le hlen)
  simp only [boot, if_pos hlen, hload]
  rfl

theorem boot_too_long (c : Config) {image : List Byte} (hlen : imageMax < image.length) :
    boot c image = { State.reset with cfg := c } :=
  if_neg (Nat.not_le.2 hlen)

theorem boot_mem_read (c : Config) {image : List Byte} (hlen : image.length ≤ imageMax) (a : Nat) :
    (boot c image).mem.read a = image.getD a 0 := by
  rw [boot_eq c hlen]
  exact Memory.read_writeList State.reset_mem_wf.1 ((Nat.zero_add _).trans_le hlen) a

end

/-- Settles O47: the writes' induction, and a reset memory lists no cell. -/
theorem readReturnsLatestWrite : Obligations.ReadReturnsLatestWrite :=
  ⟨fun ws _ a hm => Memory.read_foldl_write hm.1 ws a, fun _ => rfl⟩

/-- Settles O48: a canonical memory's cells are told by its reads. -/
theorem memoriesThatReadAlikeAreEqual : Obligations.MemoriesThatReadAlikeAreEqual :=
  fun _ _ hm hm' h => Memory.eq_of_read_eq hm hm' h

/-- Settles O51: an open port does one memory write. -/
theorem loadPortOnlyBeforeRun : Obligations.LoadPortOnlyBeforeRun := by
  refine ⟨fun s addr v => State.loadWrite_isSome, fun s t addr v hm h => ?_⟩
  obtain ⟨-, rfl⟩ := State.loadWrite_eq_some_iff.1 h
  exact ⟨Memory.read_write_same hm.1 addr v, fun a ha => Memory.read_write_ne _ v ha, rfl⟩

/-- Settles O52: a core that Run has acted on is no longer one that has not been started. -/
theorem runStartsOnce : Obligations.RunStartsOnce :=
  ⟨fun _ h => if_pos h, fun _ => State.runInput_of_not_notStarted,
    fun s => State.runInput_of_not_notStarted s.not_notStarted_runInput⟩

/-- Settles O53: the loaded bytes are read back, and Run writes the status alone. -/
theorem bootLoadsImageAndRuns : Obligations.BootLoadsImageAndRuns := by
  refine ⟨fun c image hlen => ⟨fun a _ => boot_mem_read c hlen a, ?wf, ?rest⟩, fun c image => boot_too_long c⟩
  case wf => rw [boot_eq c hlen]; exact Memory.wf_writeList State.reset_mem_wf 0 image
  case rest => rw [boot_eq c hlen]

/-- Settles O55: the codes row by row, which tell the reasons apart. -/
theorem statusPortCodes : Obligations.StatusPortCodes :=
  ⟨rfl, rfl, rfl, rfl, rfl, fun _ _ h => HaltReason.code_injective h, fun _ => rfl⟩

end Sys2Proof.Machine
end
